-- ==== Sys2Proof/Word.lean ====
section
/-!
DEFINITION. The two word types of the block (R11): a byte of 8 bits, a word of 16 bits, both unsigned unless a rule
says otherwise. Bit 0 is the least significant bit.
-/
namespace Sys2Proof

/-- A byte: 8 bits, an unsigned value 0 to 255 (R11). -/
abbrev Byte := BitVec 8

/-- A word: 16 bits, an unsigned value 0 to 65535 unless a rule says "signed" (R11). -/
abbrev Word := BitVec 16

end Sys2Proof
end

