-- ==== Sys2Proof/Config.lean ====
section
/-!
DEFINITION. The parameters the spec leaves open (R9): fixed for the life of a machine, chosen by nobody here. The
request bytes and the placeholder are constants without a body, so nothing can be proved of their values.
-/
namespace Sys2Proof

/-- The five bytes of a fixed request frame that the spec leaves free (R80, R164): source and target address, command,
sub-index and the one payload byte. -/
structure RequestBytes where
  src   : Byte
  tgt   : Byte
  cmd   : Byte
  index : Byte
  p0    : Byte
  deriving DecidableEq, Repr, Inhabited

/-- The free bytes of `REQ_INFO` (R161, R164; D12: OPEN). Assumption log 6. -/
opaque Config.infoRequest : RequestBytes

/-- The free bytes of `REQ_STATUS` (R162, R164; D12: OPEN). Assumption log 6. -/
opaque Config.statusRequest : RequestBytes

/-- The free bytes of `REQ_CELLS` (R163, R164; D12: OPEN). Assumption log 6. -/
opaque Config.cellsRequest : RequestBytes

/-- How far the code of `REPLACEMENT` lies above the ASCII codes (R9, D14: OPEN). Assumption log 7. -/
opaque Config.replacementOffset : Nat

/-- `REPLACEMENT`, the code of the visible placeholder (R9, R75): any one character code outside 0x00 to 0x7F. -/
def Config.replacement : Nat := 0x80 + Config.replacementOffset

/-- `BUF_CAP` (R9, D2): `none` is unbounded, the spec's default and the source's own buffer ("unbounded growable").
DESIGN CHOICE, assumption log 5. The operation that appends to `BUF` is defined for every value of it. -/
def Config.bufCap : Option Nat := none

end Sys2Proof
end

