-- ==== Sys2Proof/Machine/Params.lean ====
section
/-!
DEFINITION. The constants the source fixes (R8) and every layout number of the decoder (word indices, scales, the bias, the
absent mark, the dispatch keys of R76), in one place as R213 advises: a correction is one edit here. The numbers are the
source's, unaudited against a device (R19, U16). Of R8, `WORD_BYTES` and `CK_MOD` are the width of the type Word, and
`REQ_SIZE` is 9 and the one payload byte of `RequestBytes`.
-/
namespace Sys2Proof.Params

/-- First byte of the start marker (R8, R62). -/
@[simp] abbrev marker0 : Byte := 0x5A#8
/-- Second byte of the start marker (R8, R62). -/
@[simp] abbrev marker1 : Byte := 0xA5#8
/-- `HDR_SIZE`: marker 2, length 1, src 1, tgt 1, cmd 1, index 1 (R8). -/
@[simp] abbrev hdrSize : Nat := 7
/-- `TRL_SIZE`: the checksum trailer (R8). -/
@[simp] abbrev trlSize : Nat := 2
/-- `MIN_FRAME`: the smallest frame (R8, R102). -/
@[simp] abbrev minFrame : Nat := 9
/-- `LEN_OFF`: offset of the length byte (R8, R106). -/
@[simp] abbrev lenOff : Nat := 2
/-- Offsets of the header's other bytes in a frame (R60). -/
@[simp] abbrev srcOff : Nat := 3
@[simp] abbrev tgtOff : Nat := 4
@[simp] abbrev cmdOff : Nat := 5
@[simp] abbrev indexOff : Nat := 6
/-- `CK_FIRST`: offset of the first byte the checksum covers (R8, R68). -/
@[simp] abbrev ckFirst : Nat := 2
/-- The largest value of the length byte (R8: `MAX_LEN`). -/
@[simp] abbrev maxLen : Nat := 255
/-- The shortest byte string the Checksum Unit accepts (R91, D23). -/
@[simp] abbrev minCkInput : Nat := 4
/-- `SERIAL_BYTES`: payload bytes of the serial number (R8, R131). -/
@[simp] abbrev serialBytes : Nat := 14
/-- `N_CELLS`: cell words decoded from a cells frame (R8, R150). -/
@[simp] abbrev nCells : Nat := 10
/-- `CELL_ABSENT`: the word of an unpopulated cell (R8, R151). -/
@[simp] abbrev cellAbsent : Word := 0xFFFF#16
/-- `TEMP_BIAS`: subtracted from each temperature byte (R8, R73). -/
@[simp] abbrev tempBias : Int := 20
/-- The scale 0.01, as a power of ten (R74): volts of the info and status layouts, amps. -/
@[simp] abbrev centiScale : Nat := 2
/-- The division by 1000.0, as a power of ten (R74): cell volts. -/
@[simp] abbrev milliScale : Nat := 3
/-- The largest valid ASCII code (R75). -/
@[simp] abbrev asciiMax : Nat := 0x7F
/-- Info word of `fw_version` (R132). -/
@[simp] abbrev wFwVersion : Nat := 7
/-- Info word of `capacity_mah` (R133). -/
@[simp] abbrev wCapacityMah : Nat := 8
/-- Info word of `total_capacity_mah` (R133). -/
@[simp] abbrev wTotalCapacityMah : Nat := 9
/-- Info word of `design_voltage_v` (R134). -/
@[simp] abbrev wDesignVoltageV : Nat := 10
/-- Info word of `cycle_count` (R133). -/
@[simp] abbrev wCycleCount : Nat := 11
/-- Info word of `charge_count` (R133). -/
@[simp] abbrev wChargeCount : Nat := 12
/-- First info word of `raw_tail` (R135). -/
@[simp] abbrev rawTailFirst : Nat := 13
/-- The word after the last one of `raw_tail` (R135). -/
@[simp] abbrev rawTailEnd : Nat := 16
/-- Status word of `function_flags` (R141). -/
@[simp] abbrev wFunctionFlags : Nat := 0
/-- Status word of `remaining_capacity_mah` (R141). -/
@[simp] abbrev wRemainingCapacityMah : Nat := 1
/-- Status word of `remaining_percent` (R141). -/
@[simp] abbrev wRemainingPercent : Nat := 2
/-- Status word of `current_a` (R142). -/
@[simp] abbrev wCurrentA : Nat := 3
/-- Status word of `voltage_v` (R143). -/
@[simp] abbrev wVoltageV : Nat := 4
/-- Status word of the two temperatures (R144). -/
@[simp] abbrev wTemps : Nat := 5
/-- Status word of `balance_status` (R141). -/
@[simp] abbrev wBalanceStatus : Nat := 6
/-- Status word of `discharge_overcurrent_state` (R141). -/
@[simp] abbrev wDischargeOvercurrentState : Nat := 7
/-- Status word of `charge_overcurrent_state` (R141). -/
@[simp] abbrev wChargeOvercurrentState : Nat := 8
/-- Status word of `coulomb_capacity` (R141). -/
@[simp] abbrev wCoulombCapacity : Nat := 9
/-- Status word of `voltage_capacity` (R141). -/
@[simp] abbrev wVoltageCapacity : Nat := 10
/-- Status word of `health_percent` (R141). -/
@[simp] abbrev wHealthPercent : Nat := 11
/-- First status word of `reserved` (R145). -/
@[simp] abbrev reservedFirst : Nat := 12
/-- The word after the last one of `reserved` (R145). -/
@[simp] abbrev reservedEnd : Nat := 16
/-- Key of DEC.INFO: cmd 0x04, index 0x10 (R76). -/
@[simp] abbrev keyInfo : Word := 0x0410#16
/-- Key of DEC.EMPTY20 (R76). -/
@[simp] abbrev keyEmpty20 : Word := 0x0420#16
/-- Key of DEC.STATUS (R76). -/
@[simp] abbrev keyStatus : Word := 0x0430#16
/-- Key of DEC.CELLS (R76). -/
@[simp] abbrev keyCells : Word := 0x0440#16
/-- Key of DEC.EMPTY50 (R76). -/
@[simp] abbrev keyEmpty50 : Word := 0x0450#16

end Sys2Proof.Params
end

