-- ==== Sys2Proof/Machine/Values.lean ====
section
/-!
DEFINITION. The values that pass between the units: the Frame (R23), the field identifiers and values (R27, R28, R124),
the DecodedRecord (R26), the checksum pair of the error marker (R170), the arms of the dispatch map (R76) and the
condition labels (R181). None of them is persistent state by itself.
-/
namespace Sys2Proof

/-- A Frame (R23): wire-level, immutable once constructed. Raw data; `frameWf` says when it is well formed (R24). -/
structure Frame where
  length           : Byte
  src              : Byte
  tgt              : Byte
  cmd              : Byte
  index            : Byte
  payload          : List Byte
  checksumReceived : Word
  checksumComputed : Word
  deriving DecidableEq, Repr

/-- An exact decimal `mantissa / 10 ^ scale` (R27 `FX(m, k)`, R74). -/
structure Fixed where
  mantissa : Int
  scale    : Nat
  deriving DecidableEq, Repr

/-- One character of a decoded text (R27, R75): an ASCII code 0x00 to 0x7F, or the placeholder, which is never one of
them (R9). -/
inductive TextChar where
  | ascii (code : BitVec 7)
  | replacement
  deriving DecidableEq, Repr

/-- A field value: the six variants of R27. -/
inductive FieldValue where
  /-- `U(v)`: an unsigned integer 0 to 65535. -/
  | u (v : Word)
  /-- `S(v)`: a signed integer. -/
  | s (v : Int)
  /-- `FX(m, k)`: an exact decimal. -/
  | fx (x : Fixed)
  /-- `TEXT(cs)`: a sequence of character codes. -/
  | text (cs : List TextChar)
  /-- `CELLS(cm)`: a map from cell number 1 to 10, in one canonical form, numbers strictly rising. -/
  | cells (cm : List (Nat × Fixed))
  /-- `RAW(ws)`: words in payload order. -/
  | raw (ws : List Word)
  deriving DecidableEq, Repr

/-- The closed set of 23 field identifiers (R28, R124; C10): 8 of the info layout, 14 of the status layout, 1 of the
cells layout. -/
inductive FieldId where
  | serial | fwVersion | capacityMah | totalCapacityMah | designVoltageV | cycleCount | chargeCount | rawTail
  | functionFlags | remainingCapacityMah | remainingPercent | currentA | voltageV | temp1C | temp2C | balanceStatus
  | dischargeOvercurrentState | chargeOvercurrentState | coulombCapacity | voltageCapacity | healthPercent | reserved
  | cells
  deriving DecidableEq, Repr

/-- A finite map from identifiers to values (R26, R170), in one canonical form: identifiers strictly rising in the
order of R124. -/
abbrev FieldMap := List (FieldId × FieldValue)

/-- A DecodedRecord (R26). -/
structure DecodedRecord where
  checksumOk : Bool
  frame      : Frame
  fields     : FieldMap
  deriving DecidableEq, Repr

/-- The two checksums the error marker carries (R170, R171). -/
structure CkPair where
  received : Word
  computed : Word
  deriving DecidableEq, Repr

/-- The six arms of the dispatch map (R76), selected by the key once the gate has passed. -/
inductive Arm where
  | info | empty20 | status | cells | empty50 | unknown
  deriving DecidableEq, Repr

/-- The condition labels of R181 that an operation of the core can meet. They are labels of the spec, not outputs and
not state (D19); T1 belongs to the transport, outside the core (R187). -/
inductive Condition where
  /-- X0: EXTRACT returned a frame. -/
  | frame
  /-- X1: fewer than 9 bytes buffered. -/
  | short
  /-- X2: no marker among 9 or more bytes. -/
  | noise
  /-- X3: bytes in front of the marker were discarded. -/
  | leadIn
  /-- X4: the marker is there, the length byte is not. -/
  | needLen
  /-- X5: fewer than `9 + length` bytes from the marker on. -/
  | partialFrame
  /-- Y0: a record of a known key. -/
  | ok
  /-- Y1: the two checksums differ. -/
  | badCk
  /-- Y2: a key outside the five. -/
  | unknown
  /-- Y3: a placeholder stands in the serial number. -/
  | repl
  deriving DecidableEq, Repr

end Sys2Proof
end

