-- ==== Sys2Proof/Machine/Operands.lean ====
section
/-!
DEFINITION. How values are assembled from bytes: slices and reads of a byte sequence (R12, R14), little-endian words
(R13, R42, R69), signed, scaled, nibble and text forms (R70 to R75), the checksum function and its regions (R90, R68),
the Frame's byte image and well-formedness (R24, R25), and a Frame built from its header fields and payload.
-/
namespace Sys2Proof.Machine

open Sys2Proof

/-- `s[a ..< b]` (R12): elements `a` to `b - 1`, empty when `a >= b`. -/
def slice (s : List Byte) (a b : Nat) : List Byte := (s.take b).drop a

/-- `le16(lo, hi) = lo + 256 * hi` (R13). -/
def le16 (lo hi : Byte) : Word := BitVec.ofNat 16 (lo.toNat + 256 * hi.toNat)

/-- `v[7:0]` of a word (R11). -/
def loByte (v : Word) : Byte := BitVec.ofNat 8 v.toNat

/-- `v[15:8]` of a word (R11). -/
def hiByte (v : Word) : Byte := BitVec.ofNat 8 (v.toNat / 256)

/-- `MemRead(S, a, 1)` (R14). Every use has tested `a + 1 <= |S|`; the value beyond the end is never used. -/
def byteAt (s : List Byte) (a : Nat) : Byte := s.getD a 0#8

/-- `MemRead(S, a, 2)` (R14): the byte at the lower offset is the less significant (R42). -/
def wordAt (s : List Byte) (a : Nat) : Word := le16 (byteAt s a) (byteAt s (a + 1))

/-- The payload's words (R69): pairs of bytes from the payload's start, an odd trailing byte dropped (R46). -/
def payloadWords : List Byte → List Word
  | lo :: hi :: rest => le16 lo hi :: payloadWords rest
  | _ => []

/-- `sext_16(v)` (R13, R71). -/
def sext16 (v : Word) : Int := if v.toNat < 32768 then v.toNat else (v.toNat : Int) - 65536

/-- Nibble `k` of a word, `k = 0` the least significant (R72). -/
def nibble (v : Word) (k : Nat) : Nat := v.toNat / 16 ^ k % 16

/-- A temperature byte less the bias (R73): it does not wrap. -/
def biased (b : Byte) : Int := (b.toNat : Int) - Params.tempBias

/-- `FX(m, 2)`: scaled by 0.01 (R74). -/
def centi (m : Int) : FieldValue := .fx ⟨m, Params.centiScale⟩

/-- `FX(m, 3)`: divided by 1000 (R74). -/
def milli (m : Int) : Fixed := ⟨m, Params.milliScale⟩

/-- One byte of a text (R75): an ASCII code stands for itself, any other byte becomes one placeholder. -/
def asciiOrRepl (b : Byte) : TextChar := if b.toNat ≤ Params.asciiMax then .ascii (b.setWidth 7) else .replacement

/-- The character code a text character is shown as (R75, R9). -/
def charCode : TextChar → Nat
  | .ascii c => c.toNat
  | .replacement => Config.replacement

/-- A digit 0 to 9 as its ASCII character. -/
def digit (n : Nat) : TextChar := .ascii (BitVec.ofNat 7 (0x30 + n))

/-- The decimal numeral of 0 to 15, no leading zero (R130 `dec`, D17). -/
def decimal (n : Nat) : List TextChar := if n < 10 then [digit n] else [digit (n / 10), digit (n % 10)]

/-- The full stop. -/
def fullStop : TextChar := .ascii 0x2E#7

/-- The firmware version `A.B.C.D`, most significant nibble first (R72, R132). -/
def renderVersion (w : Word) : List TextChar :=
  decimal (nibble w 3) ++ fullStop :: (decimal (nibble w 2) ++ fullStop :: (decimal (nibble w 1) ++ fullStop ::
    decimal (nibble w 0)))

/-- `cksum16` (R90): each byte added to a 16-bit accumulator, then all 16 bits inverted. -/
def cksum16 (bs : List Byte) : Word := bs.foldl (fun acc b => acc + b.setWidth 16) 0#16 ^^^ 0xFFFF#16

/-- The bytes strictly between the marker and the trailer (R68, R91): by position from the two ends. -/
def covered (s : List Byte) : List Byte := slice s Params.ckFirst (s.length - Params.trlSize)

/-- CK.COMPUTE's value (R91). -/
def ckValue (s : List Byte) : Word := cksum16 (covered s)

/-- CK.VERIFY's value (R92): the computed checksum against the two trailing bytes, little-endian. -/
def ckMatches (s : List Byte) : Bool := ckValue s == wordAt s (s.length - Params.trlSize)

/-- `total_size = 7 + length + 2` (R61). -/
def totalSize (len : Byte) : Nat := Params.hdrSize + len.toNat + Params.trlSize

/-- The bytes of a Frame that its checksum covers (R24, R68). -/
def frameBody (fr : Frame) : List Byte := [fr.length, fr.src, fr.tgt, fr.cmd, fr.index] ++ fr.payload

/-- `bytes(FR)` (R25): marker, header, payload, received checksum low byte first. -/
def frameBytes (fr : Frame) : List Byte :=
  [Params.marker0, Params.marker1] ++ frameBody fr ++ [loByte fr.checksumReceived, hiByte fr.checksumReceived]

/-- A Frame is well formed (R24): `length` counts the payload and `checksum_computed` is the checksum of its own header
and payload. Equality of the two checksums is no part of it (D6). -/
def frameWf (fr : Frame) : Bool :=
  decide (fr.payload.length = fr.length.toNat) && fr.checksumComputed == cksum16 (frameBody fr)

/-- The Frame with these header fields, payload and trailer; `length` and the computed checksum are filled in (R109). -/
def sealFrame (src tgt cmd index : Byte) (received : Word) (payload : List Byte) : Frame :=
  { length := BitVec.ofNat 8 payload.length, src, tgt, cmd, index, payload, checksumReceived := received
    checksumComputed := cksum16 ([BitVec.ofNat 8 payload.length, src, tgt, cmd, index] ++ payload) }

/-- The same with the trailer a valid frame carries (R165): the computed checksum. -/
def validFrame (src tgt cmd index : Byte) (payload : List Byte) : Frame :=
  sealFrame src tgt cmd index (cksum16 ([BitVec.ofNat 8 payload.length, src, tgt, cmd, index] ++ payload)) payload

/-- The dispatch key, `cmd` in bits 15 to 8 (R65). -/
def dispatchKey (cmd index : Byte) : Word := le16 index cmd

/-- A valid frame whose `cmd` and `index` are a key's two bytes (R65). -/
def keyedFrame (key : Word) (src tgt : Byte) (payload : List Byte) : Frame :=
  validFrame src tgt (hiByte key) (loByte key) payload

/-- The row of the dispatch map a key selects (R76, R123). -/
def armOfKey (key : Word) : Arm :=
  if key = Params.keyInfo then .info
  else if key = Params.keyEmpty20 then .empty20
  else if key = Params.keyStatus then .status
  else if key = Params.keyCells then .cells
  else if key = Params.keyEmpty50 then .empty50
  else .unknown

end Sys2Proof.Machine
end

