-- ==== Sys2Proof/Syntax.lean ====
section
/-!
DEFINITION. The instructions: one constructor per row of spec/opcode_table.json. An operation's operands are its operand
ports (R79). A decoder arm's operands are the fields of a frame that selects it, less those the arm's own row fixes
(R76). A frame's `length` is the count of its payload and is no operand (R63).
-/
namespace Sys2Proof

inductive Instr where
  /-- FEED (R100). -/
  | feed (data : List Byte)
  /-- EXTRACT (R101). -/
  | extract
  /-- CK.COMPUTE (R91). -/
  | ckCompute (data : List Byte)
  /-- CK.VERIFY (R92). -/
  | ckVerify (data : List Byte)
  /-- DECODE (R120). -/
  | decode (frame : Frame)
  /-- ENC.INFO (R161). -/
  | encInfo
  /-- ENC.STATUS (R162). -/
  | encStatus
  /-- ENC.CELLS (R163). -/
  | encCells
  /-- ENC.GEN (R165). -/
  | encGen (src tgt cmd index : Byte) (payload : List Byte)
  /-- SNAP.APPLY (R171, R172). -/
  | snapApply (record : DecodedRecord)
  /-- SNAP.READ (R173). -/
  | snapRead
  /-- RESET (R200). -/
  | reset
  /-- RESERVED.C: operation code 0xC (R79). -/
  | reservedC
  /-- RESERVED.D: operation code 0xD (R79). -/
  | reservedD
  /-- RESERVED.E: operation code 0xE (R79). -/
  | reservedE
  /-- RESERVED.F: operation code 0xF (R79). -/
  | reservedF
  /-- DEC.BADCK (R127): a frame whose received checksum is not the computed one, under any key. -/
  | decBadck (src tgt cmd index : Byte) (received : Word) (payload : List Byte)
  /-- DEC.INFO (R130): key 0x0410, gate passed. -/
  | decInfo (src tgt : Byte) (payload : List Byte)
  /-- DEC.EMPTY20 (R155): key 0x0420, gate passed. -/
  | decEmpty20 (src tgt : Byte) (payload : List Byte)
  /-- DEC.STATUS (R140): key 0x0430, gate passed. -/
  | decStatus (src tgt : Byte) (payload : List Byte)
  /-- DEC.CELLS (R150): key 0x0440, gate passed. -/
  | decCells (src tgt : Byte) (payload : List Byte)
  /-- DEC.EMPTY50 (R156): key 0x0450, gate passed. -/
  | decEmpty50 (src tgt : Byte) (payload : List Byte)
  /-- DEC.UNKNOWN (R157): any key outside the five, gate passed. -/
  | decUnknown (src tgt cmd index : Byte) (payload : List Byte)
  /-- FRAME (R60): one frame arriving on the wire, with whatever checksum its trailer carries. -/
  | frame (src tgt cmd index : Byte) (payload : List Byte) (checksum : Word)
  /-- REQFRAME (R80): a request frame of one payload byte. -/
  | reqframe (src tgt cmd index p0 : Byte)
  /-- DRAIN (R82). -/
  | drain
  /-- PUMP (R82). -/
  | pump (data : List Byte)
  /-- POLL (R82). -/
  | poll
  deriving DecidableEq, Repr

end Sys2Proof
end

