-- ==== Sys2Proof/WellFormed.lean ====
section
/-!
DEFINITION. When a value is well formed: a field map in its canonical form (R26, R170), a field value of the variant and
range its identifier has (R27, R124), a record an invocation of
SNAP.APPLY may carry (R26, R30; assumption log 26), and an instruction whose operands its
rule admits (R180, 93_implementation_defined.md part 2). The decoder yields well-formed instructions only.
-/
namespace Sys2Proof

/-- The place of an identifier in the table of R124: the order of a field map's keys. -/
def fieldIndex : FieldId → Nat
  | .serial => 0 | .fwVersion => 1 | .capacityMah => 2 | .totalCapacityMah => 3 | .designVoltageV => 4
  | .cycleCount => 5 | .chargeCount => 6 | .rawTail => 7 | .functionFlags => 8 | .remainingCapacityMah => 9
  | .remainingPercent => 10 | .currentA => 11 | .voltageV => 12 | .temp1C => 13 | .temp2C => 14 | .balanceStatus => 15
  | .dischargeOvercurrentState => 16 | .chargeOvercurrentState => 17 | .coulombCapacity => 18 | .voltageCapacity => 19
  | .healthPercent => 20 | .reserved => 21 | .cells => 22

/-- Every key of the map lies after `k`. -/
def keysAbove (k : FieldId) (m : FieldMap) : Bool := m.all fun e => decide (fieldIndex k < fieldIndex e.1)

/-- The canonical form of a field map: identifiers strictly rising, so none stands twice. -/
def fieldMapCanonical : FieldMap → Bool
  | [] => true
  | e :: rest => keysAbove e.1 rest && fieldMapCanonical rest

/-- A cell map (R150): numbers strictly rising from above `lo`, at most 10, each value `FX(w, 3)` of a word `w` that is
not the absent mark. -/
def cellMapFits : Nat → List (Nat × Fixed) → Bool
  | _, [] => true
  | lo, (n, x) :: rest =>
    decide (lo < n) && decide (n ≤ Params.nCells) && x.scale == Params.milliScale && decide (0 ≤ x.mantissa) &&
      decide (x.mantissa < Params.cellAbsent.toNat) && cellMapFits n rest

/-- An unsigned word scaled by 0.01 (R134, R143). -/
def unsignedCenti (x : Fixed) : Bool := x.scale == Params.centiScale && decide (0 ≤ x.mantissa) && decide (x.mantissa ≤ 65535)

/-- A value has the variant its identifier has in R124, and lies in that field's range. -/
def valueFits : FieldId → FieldValue → Bool
  | .serial, .text cs => decide (cs.length ≤ Params.serialBytes)
  | .fwVersion, .text cs => decide (7 ≤ cs.length) && decide (cs.length ≤ 11)
  | .capacityMah, .u _ | .totalCapacityMah, .u _ | .cycleCount, .u _ | .chargeCount, .u _ => true
  | .designVoltageV, .fx x => unsignedCenti x
  | .rawTail, .raw ws =>
    decide (1 ≤ ws.length) && decide (ws.length ≤ Params.rawTailEnd - Params.rawTailFirst)
  | .functionFlags, .u _ | .remainingCapacityMah, .u _ | .remainingPercent, .u _ | .balanceStatus, .u _ => true
  | .dischargeOvercurrentState, .u _ | .chargeOvercurrentState, .u _ | .coulombCapacity, .u _ => true
  | .voltageCapacity, .u _ | .healthPercent, .u _ => true
  | .currentA, .fx x => x.scale == Params.centiScale && decide (-32768 ≤ x.mantissa) && decide (x.mantissa ≤ 32767)
  | .voltageV, .fx x => unsignedCenti x
  | .temp1C, .s v | .temp2C, .s v => decide (-Params.tempBias ≤ v) && decide (v ≤ 255 - Params.tempBias)
  | .reserved, .raw ws =>
    decide (1 ≤ ws.length) && decide (ws.length ≤ Params.reservedEnd - Params.reservedFirst)
  | .cells, .cells cm => cellMapFits 0 cm
  | _, _ => false

/-- Every value of the map fits its identifier. -/
def fieldMapFits (m : FieldMap) : Bool := m.all fun e => valueFits e.1 e.2

/-- A field map in canonical form whose values fit. -/
def fieldMapWf (m : FieldMap) : Bool := fieldMapCanonical m && fieldMapFits m

/-- The records an invocation of SNAP.APPLY may carry: a well-formed frame, the flag that compares its checksums (R30,
R121), a well-formed field map, and no field when the flag is false (R26). Every record of DECODE is one. So is a good
record with any well-formed field map, whatever its frame's key and payload: the spec leaves open which hand-made records
there are (R26 says empty under a key without a layout, while the examples of R172 and V-N5 apply records no frame decodes
to), and the model admits these. DESIGN CHOICE, assumption log 26. -/
def recordWf (r : DecodedRecord) : Bool :=
  Machine.frameWf r.frame && (r.checksumOk == (r.frame.checksumReceived == r.frame.checksumComputed)) &&
    fieldMapWf r.fields && (r.checksumOk || r.fields.isEmpty)

/-- A payload the length byte can count (R63, R165). -/
def payloadFits (payload : List Byte) : Bool := decide (payload.length ≤ Params.maxLen)

/-- An instruction whose operands its rule admits (R180). -/
def Instr.wf : Instr → Bool
  | .ckCompute data | .ckVerify data => decide (Params.minCkInput ≤ data.length)
  | .decode fr => Machine.frameWf fr
  | .encGen _ _ _ _ payload => payloadFits payload
  | .snapApply r => recordWf r
  | .decBadck src tgt cmd index rx payload =>
    payloadFits payload && rx != (Machine.sealFrame src tgt cmd index rx payload).checksumComputed
  | .decInfo _ _ payload | .decEmpty20 _ _ payload | .decStatus _ _ payload | .decCells _ _ payload
  | .decEmpty50 _ _ payload => payloadFits payload
  | .decUnknown _ _ cmd index payload =>
    payloadFits payload && Machine.armOfKey (Machine.dispatchKey cmd index) == .unknown
  | .frame _ _ _ _ payload _ => payloadFits payload
  | .feed _ | .extract | .encInfo | .encStatus | .encCells | .snapRead | .reset => true
  | .reservedC | .reservedD | .reservedE | .reservedF => true
  | .reqframe _ _ _ _ _ | .drain | .pump _ | .poll => true

end Sys2Proof
end

