-- ==== Sys2Proof/Decode.lean ====
section
/-!
DEFINITION. The encoding of an invocation as bytes, and its decoder. The spec's encodings are the words of
spec/opcode_table.json: the operation code (R79), the gate bit and the dispatch key (R76), the wire frame (R60) and the
request frame (R80). An invocation is the byte that selects its format, that word, then its operands. The selecting byte
and the packing of operands are the model's (DESIGN CHOICE, assumption log 2): a byte sequence of any length is a byte
1 before each element and a byte 0 at its end, so that it needs no length limit. Total on any bytes: what is no
invocation is rejected by name.
-/
namespace Sys2Proof

open Sys2Proof.Machine

/-- Why bytes are no invocation. -/
inductive Reject where
  /-- The bytes end inside an invocation. -/
  | truncated
  /-- No format has this selecting byte. -/
  | unknownFormat (b : Byte)
  /-- A bit above the 4 of an operation code (R79) or the 1 of the gate (R76) is set. -/
  | codeTooWide (b : Byte)
  /-- A gate bit of 1: the gate has passed, and the key selects the arm (R76). -/
  | gatePassed
  /-- No pseudo-operation has this number. -/
  | unknownPseudo (b : Byte)
  /-- A byte other than 0 and 1 where a sequence goes on or ends, or for a flag or a sign. -/
  | badFlag (b : Byte)
  /-- The first two bytes of a frame are not the start marker (R62). -/
  | badMarker
  /-- The length byte of a request frame is not 1 (R80). -/
  | badLength
  /-- The trailer of a request frame is not its checksum (R80). -/
  | badChecksum
  /-- No field identifier has this number (R124). -/
  | unknownField (b : Byte)
  /-- No variant of a field value has this number (R27). -/
  | unknownVariant (b : Byte)
  /-- The operands are not admitted by the instruction's rule (WellFormed). -/
  | illFormed
  deriving DecidableEq, Repr

/-- A flag byte. -/
def readFlag (b : Byte) : Except Reject Bool :=
  if b = 0#8 then .ok false else if b = 1#8 then .ok true else .error (.badFlag b)

/-- The flag byte of a boolean. -/
def flagByte (b : Bool) : Byte := if b then 1#8 else 0#8

/-- A byte sequence: 1 before each element, 0 at the end. -/
def encodeSeq : List Byte → List Byte
  | [] => [0#8]
  | b :: bs => 1#8 :: b :: encodeSeq bs

def decodeSeq : List Byte → Except Reject (List Byte × List Byte)
  | [] => .error .truncated
  | [f] => do if ← readFlag f then .error .truncated else .ok ([], [])
  | f :: b :: rest => do
    if ← readFlag f then
      let (bs, rest') ← decodeSeq rest
      .ok (b :: bs, rest')
    else .ok ([], b :: rest)

/-- A word, low byte first (R42). -/
def encodeWord (w : Word) : List Byte := [loByte w, hiByte w]

/-- A sequence of words, packed like a sequence of bytes. -/
def encodeWords : List Word → List Byte
  | [] => [0#8]
  | w :: ws => 1#8 :: loByte w :: hiByte w :: encodeWords ws

def decodeWords : List Byte → Except Reject (List Word × List Byte)
  | f :: lo :: hi :: rest => do
    if ← readFlag f then
      let (ws, rest') ← decodeWords rest
      .ok (le16 lo hi :: ws, rest')
    else .ok ([], lo :: hi :: rest)
  | f :: rest => do if ← readFlag f then .error .truncated else .ok ([], rest)
  | [] => .error .truncated

/-- An integer of magnitude up to 65535: a sign byte, then the magnitude. -/
def encodeInt (m : Int) : List Byte := flagByte (decide (m < 0)) :: encodeWord (BitVec.ofNat 16 m.natAbs)

def decodeInt : List Byte → Except Reject (Int × List Byte)
  | f :: lo :: hi :: rest => do
    let neg ← readFlag f
    let m : Int := ((le16 lo hi).toNat : Int)
    .ok (if neg then -m else m, rest)
  | _ => .error .truncated

/-- A text character: its ASCII code, or 0x80 for the placeholder. -/
def encodeChar : TextChar → Byte
  | .ascii c => c.setWidth 8
  | .replacement => 0x80#8

def decodeChar (b : Byte) : TextChar := if b.toNat ≤ 0x7F then .ascii (b.setWidth 7) else .replacement

/-- A cell map: each entry its number and its word. -/
def encodeCells : List (Nat × Fixed) → List Byte
  | [] => [0#8]
  | (n, x) :: cm =>
    1#8 :: BitVec.ofNat 8 n :: loByte (BitVec.ofNat 16 x.mantissa.natAbs) ::
      hiByte (BitVec.ofNat 16 x.mantissa.natAbs) :: encodeCells cm

def decodeCells : List Byte → Except Reject (List (Nat × Fixed) × List Byte)
  | f :: n :: lo :: hi :: rest => do
    if ← readFlag f then
      let (cm, rest') ← decodeCells rest
      .ok ((n.toNat, milli (le16 lo hi).toNat) :: cm, rest')
    else .ok ([], n :: lo :: hi :: rest)
  | f :: rest => do if ← readFlag f then .error .truncated else .ok ([], rest)
  | [] => .error .truncated

/-- A field value: the number of its variant in R27, then what it carries. -/
def encodeValue : FieldValue → List Byte
  | .u v => 0#8 :: encodeWord v
  | .s v => 1#8 :: encodeInt v
  | .fx x => 2#8 :: BitVec.ofNat 8 x.scale :: encodeInt x.mantissa
  | .text cs => 3#8 :: encodeSeq (cs.map encodeChar)
  | .cells cm => 4#8 :: encodeCells cm
  | .raw ws => 5#8 :: encodeWords ws

def decodeValue : List Byte → Except Reject (FieldValue × List Byte)
  | [] => .error .truncated
  | t :: rest =>
    if t = 0#8 then
      match rest with
      | lo :: hi :: rest' => .ok (.u (le16 lo hi), rest')
      | _ => .error .truncated
    else if t = 1#8 then do
      let (v, rest') ← decodeInt rest
      .ok (.s v, rest')
    else if t = 2#8 then
      match rest with
      | k :: rest' => do
        let (m, rest'') ← decodeInt rest'
        .ok (.fx ⟨m, k.toNat⟩, rest'')
      | [] => .error .truncated
    else if t = 3#8 then do
      let (bs, rest') ← decodeSeq rest
      .ok (.text (bs.map decodeChar), rest')
    else if t = 4#8 then do
      let (cm, rest') ← decodeCells rest
      .ok (.cells cm, rest')
    else if t = 5#8 then do
      let (ws, rest') ← decodeWords rest
      .ok (.raw ws, rest')
    else .error (.unknownVariant t)

/-- The 23 identifiers in the order of R124: entry `n` has index `n`. -/
def fieldIds : List FieldId :=
  [.serial, .fwVersion, .capacityMah, .totalCapacityMah, .designVoltageV, .cycleCount, .chargeCount, .rawTail,
   .functionFlags, .remainingCapacityMah, .remainingPercent, .currentA, .voltageV, .temp1C, .temp2C, .balanceStatus,
   .dischargeOvercurrentState, .chargeOvercurrentState, .coulombCapacity, .voltageCapacity, .healthPercent, .reserved,
   .cells]

/-- A field map: each entry its identifier and its value. -/
def encodeFields : FieldMap → List Byte
  | [] => [0#8]
  | (k, v) :: m => 1#8 :: BitVec.ofNat 8 (fieldIndex k) :: (encodeValue v ++ encodeFields m)

/-- Reads at most `fuel` entries; the number of bytes is fuel enough, since an entry takes more than one. -/
def decodeFields : Nat → List Byte → Except Reject (FieldMap × List Byte)
  | 0, _ => .error .truncated
  | _ + 1, [] => .error .truncated
  | fuel + 1, f :: rest => do
    if ← readFlag f then
      match rest with
      | [] => .error .truncated
      | n :: rest' =>
        match fieldIds[n.toNat]? with
        | none => .error (.unknownField n)
        | some k => do
          let (v, rest'') ← decodeValue rest'
          let (m, rest''') ← decodeFields fuel rest''
          .ok ((k, v) :: m, rest''')
    else .ok ([], rest)

/-- A frame operand: header fields, received checksum, payload. Its length and computed checksum are not written: a
well-formed frame has only one of each (R24). -/
def encodeFrame (fr : Frame) : List Byte :=
  [fr.src, fr.tgt, fr.cmd, fr.index, loByte fr.checksumReceived, hiByte fr.checksumReceived] ++ encodeSeq fr.payload

def decodeFrame : List Byte → Except Reject (Frame × List Byte)
  | src :: tgt :: cmd :: index :: lo :: hi :: rest => do
    let (payload, rest') ← decodeSeq rest
    .ok (sealFrame src tgt cmd index (le16 lo hi) payload, rest')
  | _ => .error .truncated

/-- A byte string of the Checksum Unit: its first four bytes (R91: four or more), then the others as a sequence. -/
def encodeCkInput (data : List Byte) : List Byte := data.take 4 ++ encodeSeq (data.drop 4)

def decodeCkInput : List Byte → Except Reject (List Byte × List Byte)
  | a :: b :: c :: d :: rest => do
    let (more, rest') ← decodeSeq rest
    .ok (a :: b :: c :: d :: more, rest')
  | _ => .error .truncated

/-- Format OP: the byte that selects it. -/
def fmtOp : Byte := 0#8
/-- Format GATE. -/
def fmtGate : Byte := 1#8
/-- Format DISPATCH. -/
def fmtDispatch : Byte := 2#8
/-- Format WIRE. -/
def fmtWire : Byte := 3#8
/-- Format REQ. -/
def fmtReq : Byte := 4#8
/-- Format PSEUDO. -/
def fmtPseudo : Byte := 5#8

/-- An arm invocation: the key's word, low byte first, then the frame's other fields. -/
def encodeArm (key : Word) (src tgt : Byte) (payload : List Byte) : List Byte :=
  fmtDispatch :: loByte key :: hiByte key :: src :: tgt :: encodeSeq payload

/-- The bytes of an invocation. -/
def encode : Instr → List Byte
  | .feed data => fmtOp :: 0x0#8 :: encodeSeq data
  | .extract => [fmtOp, 0x1#8]
  | .ckCompute data => fmtOp :: 0x2#8 :: encodeCkInput data
  | .ckVerify data => fmtOp :: 0x3#8 :: encodeCkInput data
  | .decode fr => fmtOp :: 0x4#8 :: encodeFrame fr
  | .encInfo => [fmtOp, 0x5#8]
  | .encStatus => [fmtOp, 0x6#8]
  | .encCells => [fmtOp, 0x7#8]
  | .encGen src tgt cmd index payload => fmtOp :: 0x8#8 :: src :: tgt :: cmd :: index :: encodeSeq payload
  | .snapApply r => fmtOp :: 0x9#8 :: flagByte r.checksumOk :: (encodeFrame r.frame ++ encodeFields r.fields)
  | .snapRead => [fmtOp, 0xA#8]
  | .reset => [fmtOp, 0xB#8]
  | .reservedC => [fmtOp, 0xC#8]
  | .reservedD => [fmtOp, 0xD#8]
  | .reservedE => [fmtOp, 0xE#8]
  | .reservedF => [fmtOp, 0xF#8]
  | .decBadck src tgt cmd index rx payload =>
    fmtGate :: 0#8 :: src :: tgt :: cmd :: index :: loByte rx :: hiByte rx :: encodeSeq payload
  | .decInfo src tgt payload => encodeArm Params.keyInfo src tgt payload
  | .decEmpty20 src tgt payload => encodeArm Params.keyEmpty20 src tgt payload
  | .decStatus src tgt payload => encodeArm Params.keyStatus src tgt payload
  | .decCells src tgt payload => encodeArm Params.keyCells src tgt payload
  | .decEmpty50 src tgt payload => encodeArm Params.keyEmpty50 src tgt payload
  | .decUnknown src tgt cmd index payload => encodeArm (dispatchKey cmd index) src tgt payload
  | .frame src tgt cmd index payload ck => fmtWire :: frameBytes (sealFrame src tgt cmd index ck payload)
  | .reqframe src tgt cmd index p0 => fmtReq :: frameBytes (validFrame src tgt cmd index [p0])
  | .drain => [fmtPseudo, 0#8]
  | .pump data => fmtPseudo :: 1#8 :: encodeSeq data
  | .poll => [fmtPseudo, 2#8]

/-- Format OP (R79): the operation the low four bits name, then its operand ports. -/
def decodeOp : List Byte → Except Reject (Instr × List Byte)
  | [] => .error .truncated
  | c :: rest =>
    match c.toNat with
    | 0x0 => do let (d, r) ← decodeSeq rest; .ok (.feed d, r)
    | 0x1 => .ok (.extract, rest)
    | 0x2 => do let (d, r) ← decodeCkInput rest; .ok (.ckCompute d, r)
    | 0x3 => do let (d, r) ← decodeCkInput rest; .ok (.ckVerify d, r)
    | 0x4 => do let (fr, r) ← decodeFrame rest; .ok (.decode fr, r)
    | 0x5 => .ok (.encInfo, rest)
    | 0x6 => .ok (.encStatus, rest)
    | 0x7 => .ok (.encCells, rest)
    | 0x8 =>
      match rest with
      | src :: tgt :: cmd :: index :: rest' => do
        let (p, r) ← decodeSeq rest'
        .ok (.encGen src tgt cmd index p, r)
      | _ => .error .truncated
    | 0x9 =>
      match rest with
      | [] => .error .truncated
      | f :: rest' => do
        let ok ← readFlag f
        let (fr, r) ← decodeFrame rest'
        let (m, r') ← decodeFields (r.length + 1) r
        .ok (.snapApply ⟨ok, fr, m⟩, r')
    | 0xA => .ok (.snapRead, rest)
    | 0xB => .ok (.reset, rest)
    | 0xC => .ok (.reservedC, rest)
    | 0xD => .ok (.reservedD, rest)
    | 0xE => .ok (.reservedE, rest)
    | 0xF => .ok (.reservedF, rest)
    | _ => .error (.codeTooWide c)

/-- Format GATE (R76): bit 0 is `ck_equal`; 0 is DEC.BADCK whatever the key. -/
def decodeGate : List Byte → Except Reject (Instr × List Byte)
  | g :: rest =>
    if g = 0#8 then
      match rest with
      | src :: tgt :: cmd :: index :: lo :: hi :: rest' => do
        let (p, r) ← decodeSeq rest'
        .ok (.decBadck src tgt cmd index (le16 lo hi) p, r)
      | _ => .error .truncated
    else if g = 1#8 then .error .gatePassed
    else .error (.codeTooWide g)
  | [] => .error .truncated

/-- Format DISPATCH (R76): all 16 bits of the key select the arm. -/
def decodeDispatch : List Byte → Except Reject (Instr × List Byte)
  | lo :: hi :: src :: tgt :: rest => do
    let (p, r) ← decodeSeq rest
    match armOfKey (le16 lo hi) with
    | .info => .ok (.decInfo src tgt p, r)
    | .empty20 => .ok (.decEmpty20 src tgt p, r)
    | .status => .ok (.decStatus src tgt p, r)
    | .cells => .ok (.decCells src tgt p, r)
    | .empty50 => .ok (.decEmpty50 src tgt p, r)
    | .unknown => .ok (.decUnknown src tgt hi lo p, r)
  | _ => .error .truncated

/-- Format WIRE (R60): the length byte alone says where the payload and the trailer end (R61). -/
def decodeWire : List Byte → Except Reject (Instr × List Byte)
  | m0 :: m1 :: len :: src :: tgt :: cmd :: index :: rest =>
    if m0 = Params.marker0 ∧ m1 = Params.marker1 then
      if rest.length < len.toNat then .error .truncated
      else
        match rest.drop len.toNat with
        | lo :: hi :: r => .ok (.frame src tgt cmd index (rest.take len.toNat) (le16 lo hi), r)
        | _ => .error .truncated
    else .error .badMarker
  | _ => .error .truncated

/-- Format REQ (R80): ten bytes, length 1, a valid checksum. -/
def decodeReq : List Byte → Except Reject (Instr × List Byte)
  | m0 :: m1 :: len :: src :: tgt :: cmd :: index :: p0 :: lo :: hi :: r =>
    if m0 = Params.marker0 ∧ m1 = Params.marker1 then
      if len = 1#8 then
        if le16 lo hi = cksum16 [len, src, tgt, cmd, index, p0] then .ok (.reqframe src tgt cmd index p0, r)
        else .error .badChecksum
      else .error .badLength
    else .error .badMarker
  | _ => .error .truncated

/-- Format PSEUDO: the three pseudo-operations in the order of R82. -/
def decodePseudo : List Byte → Except Reject (Instr × List Byte)
  | [] => .error .truncated
  | b :: rest =>
    if b = 0#8 then .ok (.drain, rest)
    else if b = 1#8 then do let (d, r) ← decodeSeq rest; .ok (.pump d, r)
    else if b = 2#8 then .ok (.poll, rest)
    else .error (.unknownPseudo b)

/-- An invocation, its operands not yet checked. -/
def decodeRaw : List Byte → Except Reject (Instr × List Byte)
  | [] => .error .truncated
  | f :: rest =>
    if f = fmtOp then decodeOp rest
    else if f = fmtGate then decodeGate rest
    else if f = fmtDispatch then decodeDispatch rest
    else if f = fmtWire then decodeWire rest
    else if f = fmtReq then decodeReq rest
    else if f = fmtPseudo then decodePseudo rest
    else .error (.unknownFormat f)

/-- The decoder: the first invocation of a byte string and the bytes after it. It yields well-formed instructions only. -/
def decode (bs : List Byte) : Except Reject (Instr × List Byte) := do
  let (i, rest) ← decodeRaw bs
  if i.wf then .ok (i, rest) else .error .illFormed

/-- The `n` low bytes of a number, least significant first. -/
def lowBytes : Nat → Nat → List Byte
  | 0, _ => []
  | n + 1, w => BitVec.ofNat 8 w :: lowBytes n (w / 256)

/-- The format whose words have this many bits in the table: GATE 1, OP 4, DISPATCH 16, WIRE 56 (the header), REQ 80.
A GATE word counted as a whole byte cannot be told from an OP word and is read as one (assumption log 2). -/
def tableFormat (nbits : Nat) : Byte :=
  if nbits < 4 then fmtGate
  else if nbits ≤ 8 then fmtOp
  else if nbits ≤ 16 then fmtDispatch
  else if nbits = 80 then fmtReq
  else fmtWire

/-- Zero bytes for the operands of a table word, all of them zeros. After a wire frame's header (its third byte the
length) they are the payload and the trailer; every other row takes at most 10. -/
def tablePadding (nbits w : Nat) : List Byte :=
  if tableFormat nbits = fmtWire then List.replicate (w / 65536 % 256 + 2) 0#8 else List.replicate 10 0#8

/-- A table word as an invocation whose operands are zeros. -/
def paddedTableWord (nbits w : Nat) : List Byte :=
  tableFormat nbits :: (lowBytes ((nbits + 7) / 8) w ++ tablePadding nbits w)

/-- The instruction the decoder reads from a table word (the host's question). -/
def decodeTableWord (nbits w : Nat) : Option Instr :=
  match decode (paddedTableWord nbits w) with
  | .ok (i, _) => some i
  | .error _ => none

/-- The bytes of that invocation alone, without the zeros after it. -/
def tableBytes (nbits w : Nat) : List Byte :=
  match decode (paddedTableWord nbits w) with
  | .ok (_, rest) => (paddedTableWord nbits w).take ((paddedTableWord nbits w).length - rest.length)
  | .error _ => paddedTableWord nbits w

end Sys2Proof
end

