-- ==== Sys2Proof/Machine/State.lean ====
section
/-!
DEFINITION. The machine's state: the three items the spec says persist (R20), and the two lists through which the host
meets the core, its pending invocations and the results of the last one. Plain data.
-/
namespace Sys2Proof.Machine

/-- A value an operation returns on its result ports (R16, R79). -/
inductive Result where
  /-- EXTRACT: `valid` and `frame` (R101). -/
  | extracted (frame : Option Frame)
  /-- CK.COMPUTE: `ck` (R91). -/
  | ck (w : Word)
  /-- CK.VERIFY: `ok` (R92). -/
  | ok (b : Bool)
  /-- DECODE: `record` (R120). -/
  | record (r : DecodedRecord)
  /-- ENC.*: `data` (R161 to R165). -/
  | data (bs : List Byte)
  /-- SNAP.READ: `fields` and `err` (R173). -/
  | snapshot (fields : FieldMap) (err : Option CkPair)
  deriving DecidableEq, Repr

structure State where
  /-- `BUF` (R21): the bytes fed and not yet consumed or discarded, the oldest first. -/
  buf        : List Byte
  /-- `SNAP.FIELDS` (R29, R170). -/
  snapFields : FieldMap
  /-- `SNAP.ERR` (R29, R30, R170). -/
  snapErr    : Option CkPair
  /-- The result ports: what the last invocation returned, in order (R16, R79). The model's own field, DESIGN CHOICE,
  assumption log 3. -/
  results    : List Result
  /-- The host's pending invocations as bytes, the next one first (R10, R34). The model's own field, DESIGN CHOICE,
  assumption log 1. -/
  calls      : List Byte
  deriving DecidableEq, Repr

/-- There is no fault: no operation raises, traps or aborts (R180), so no reason for one exists. Safe. -/
inductive Fault where
  deriving DecidableEq, Repr

/-- Why the model has no step. A refusal is never a trap and changes no state (93_implementation_defined.md part 2). Each
of them is safe: the model stops where the spec gives no result. -/
inductive Refusal where
  /-- An instruction without a meaning, by its mnemonic: raised by exec only. None is left. Safe. -/
  | notModelled (mnemonic : String)
  /-- RESERVED.C to RESERVED.F: an operation code 0xC to 0xF (R79, D1). Safe. -/
  | reservedOp (code : Byte)
  /-- FEED, FRAME, PUMP: the bytes would make `|BUF|` exceed a finite BUF_CAP (R100, R210, D2). Safe. -/
  | bufferOverflow
  /-- CK.COMPUTE, CK.VERIFY: fewer than 4 bytes (R91, R92, D23). Safe. -/
  | shortChecksumInput
  /-- DECODE and the decoder arms: a Frame that is not well formed (R120, R180, D6). Safe. -/
  | illFormedFrame
  /-- DEC.BADCK, DEC.UNKNOWN: a frame that selects another arm (R76, R127, R157). Safe. -/
  | armNotSelected
  /-- ENC.GEN, FRAME: a payload of more than 255 bytes (R165, R61, D22). Safe. -/
  | payloadTooLong
  /-- step: no agent has invoked anything (R10: the core has no agent of its own). Safe. -/
  | noInvocation
  /-- step: the pending bytes are no invocation (assumption log 2). Safe. -/
  | undecodable (why : Reject)
  deriving DecidableEq, Repr

/-- The state after reset: the three items at the values of R35 and R36 (R201), nothing returned, nothing invoked. -/
def State.reset : State := { buf := [], snapFields := [], snapErr := none, results := [], calls := [] }

/-- `BUF <- b`. -/
def State.setBuf (s : State) (b : List Byte) : State := { s with buf := b }

/-- Both parts of the Snapshot. -/
def State.setSnap (s : State) (m : FieldMap) (e : Option CkPair) : State := { s with snapFields := m, snapErr := e }

/-- The result ports. -/
def State.returning (s : State) (rs : List Result) : State := { s with results := rs }

/-- The pending invocations. -/
def State.setCalls (s : State) (bs : List Byte) : State := { s with calls := bs }

end Sys2Proof.Machine
end

