-- ==== Sys2Proof/Machine/Flags.lean ====
section
/-!
DEFINITION. The two status flags (R30): `checksum_ok` of a record, set by the gate (R121), and `SNAP.ERR`, set and
cleared by SNAP.APPLY (R171, R172). And the condition labels of R181 in the priority of R189, for diagnostics only: no
operation returns one and none is state.
-/
namespace Sys2Proof.Machine

/-- The gate (R121): `checksum_received = checksum_computed`. -/
def gatePasses (fr : Frame) : Bool := fr.checksumReceived == fr.checksumComputed

/-- `SNAP.ERR` after SNAP.APPLY of a record (R171, R172): both checksums of a failed one, nothing after a good one. -/
def errAfter (r : DecodedRecord) : Option CkPair :=
  if r.checksumOk then none else some ⟨r.frame.checksumReceived, r.frame.checksumComputed⟩

/-- The least offset of the two marker bytes, adjacent and in order (R62, R103; the first one: D3). -/
def findMarker : List Byte → Option Nat
  | a :: b :: rest =>
    if a = Params.marker0 ∧ b = Params.marker1 then some 0 else (findMarker (b :: rest)).map (· + 1)
  | _ => none

/-- The labels of one EXTRACT (R181, R189): lead-in, when there is any, before the exit taken. -/
def extractConditions (buf : List Byte) : List Condition :=
  if buf.length < Params.minFrame then [.short]
  else
    match findMarker buf with
    | none => [.noise]
    | some p =>
      (if 0 < p then [.leadIn] else []) ++
        (match (buf.drop p)[Params.lenOff]? with
          | none => [.needLen]
          | some len => if (buf.drop p).length < totalSize len then [.partialFrame] else [.frame])

/-- The labels of one DECODE (R181, R189): the gate first, the placeholder only in a good info record. -/
def decodeConditions (fr : Frame) : List Condition :=
  if !gatePasses fr then [.badCk]
  else
    match armOfKey (dispatchKey fr.cmd fr.index) with
    | .unknown => [.unknown]
    | .info =>
      .ok :: (if (fr.payload.take Params.serialBytes).any (fun b => decide (Params.asciiMax < b.toNat)) then [.repl] else [])
    | _ => [.ok]

end Sys2Proof.Machine
end

