-- ==== Sys2Proof/Machine/Ops.lean ====
section
/-!
DEFINITION. The operations the meanings share: appending to `BUF` (R100), the seven steps of EXTRACT (R101 to R109), the
drain (R82), the frame builder (R165), the three layouts and the record of a frame (R120 to R158), the Snapshot's map and
merge (R170 to R172), returning a result, and taking the next pending invocation. The block has no exception to take and
none to return from (R180, R190): a condition ends an operation with a result, and the one thing a condition leaves
behind is `SNAP.ERR`, written by `applyRecord`.
-/
namespace Sys2Proof.Machine

/-- An operation's outcome. -/
abbrev Out := Host.Outcome State Fault Refusal

/-- A capacity admits this many bytes (R9 `BUF_CAP`). -/
def capAdmits (cap : Option Nat) (n : Nat) : Bool := match cap with
  | none => true
  | some c => decide (n ≤ c)

/-- FEED under a capacity (R100, D2): the bytes go to the back of `BUF`; over a finite capacity there is no step. -/
def feedBuf (cap : Option Nat) (data : List Byte) (s : State) : Out :=
  if capAdmits cap (s.buf.length + data.length) then .next ((s.setBuf (s.buf ++ data)).returning [])
  else .refused .bufferOverflow

/-- `parse(S)` (R109): the fields by position, the computed checksum by the Checksum Unit. -/
def parseFrame (s : List Byte) : Frame :=
  let len := byteAt s Params.lenOff
  { length := len, src := byteAt s Params.srcOff, tgt := byteAt s Params.tgtOff, cmd := byteAt s Params.cmdOff
    index := byteAt s Params.indexOff
    payload := slice s Params.hdrSize (Params.hdrSize + len.toNat)
    checksumReceived := wordAt s (Params.hdrSize + len.toNat)
    checksumComputed := ckValue s }

/-- Steps 4 to 7 of EXTRACT (R105 to R108) on a buffer that starts with the marker. -/
def cutFrame (b : List Byte) : Option Frame × List Byte :=
  match b[Params.lenOff]? with
  | none => (none, b)
  | some len =>
    if b.length < totalSize len then (none, b) else (some (parseFrame (b.take (totalSize len))), b.drop (totalSize len))

/-- EXTRACT (R101): the frame, if one is returned, and the buffer it leaves. Steps 1 to 3 (R102 to R104), then the cut. -/
def extractBuf (b : List Byte) : Option Frame × List Byte :=
  if b.length < Params.minFrame then (none, b)
  else
    match findMarker b with
    | none => (none, [])
    | some p => cutFrame (b.drop p)

/-- The drain (R82): EXTRACT until it returns `None`. Each frame takes bytes from a finite buffer, so as many rounds as
there are bytes, and one, are enough. -/
def drainRounds : Nat → List Byte → List Frame × List Byte
  | 0, b => ([], b)
  | n + 1, b =>
    match extractBuf b with
    | (none, b') => ([], b')
    | (some f, b') => (f :: (drainRounds n b').1, (drainRounds n b').2)

def drainBuf (b : List Byte) : List Frame × List Byte := drainRounds (b.length + 1) b

/-- What the EXTRACTs of a drain returned: every frame, then `None`. -/
def drainResults (fs : List Frame) : List Result := fs.map (fun f => .extracted (some f)) ++ [.extracted none]

/-- A frame built from its header fields and payload (R165). -/
def buildFrame (src tgt cmd index : Byte) (payload : List Byte) : List Byte :=
  let body := [BitVec.ofNat 8 payload.length, src, tgt, cmd, index] ++ payload
  [Params.marker0, Params.marker1] ++ body ++ [loByte (cksum16 body), hiByte (cksum16 body)]

/-- A request frame (R80, R164): the general builder on one payload byte. -/
def requestFrame (r : RequestBytes) : List Byte := buildFrame r.src r.tgt r.cmd r.index [r.p0]

/-- A field that is there when its word is (R125). -/
def wordField (k : FieldId) (w : Option Word) (f : Word → FieldValue) : FieldMap :=
  match w with
  | none => []
  | some w => [(k, f w)]

/-- Raw words, there when one of them is (R135, R145, D16). -/
def rawField (k : FieldId) (ws : List Word) : FieldMap := if ws.isEmpty then [] else [(k, .raw ws)]

/-- `info_fields` (R130 to R135). -/
def infoFields (payload : List Byte) : FieldMap :=
  let w := payloadWords payload
  [(.serial, .text ((payload.take Params.serialBytes).map asciiOrRepl))] ++
    wordField .fwVersion w[Params.wFwVersion]? (fun v => .text (renderVersion v)) ++
    wordField .capacityMah w[Params.wCapacityMah]? .u ++
    wordField .totalCapacityMah w[Params.wTotalCapacityMah]? .u ++
    wordField .designVoltageV w[Params.wDesignVoltageV]? (fun v => centi v.toNat) ++
    wordField .cycleCount w[Params.wCycleCount]? .u ++
    wordField .chargeCount w[Params.wChargeCount]? .u ++
    rawField .rawTail ((w.drop Params.rawTailFirst).take (Params.rawTailEnd - Params.rawTailFirst))

/-- `status_fields` (R140 to R145). -/
def statusFields (payload : List Byte) : FieldMap :=
  let w := payloadWords payload
  wordField .functionFlags w[Params.wFunctionFlags]? .u ++
    wordField .remainingCapacityMah w[Params.wRemainingCapacityMah]? .u ++
    wordField .remainingPercent w[Params.wRemainingPercent]? .u ++
    wordField .currentA w[Params.wCurrentA]? (fun v => centi (sext16 v)) ++
    wordField .voltageV w[Params.wVoltageV]? (fun v => centi v.toNat) ++
    wordField .temp1C w[Params.wTemps]? (fun v => .s (biased (loByte v))) ++
    wordField .temp2C w[Params.wTemps]? (fun v => .s (biased (hiByte v))) ++
    wordField .balanceStatus w[Params.wBalanceStatus]? .u ++
    wordField .dischargeOvercurrentState w[Params.wDischargeOvercurrentState]? .u ++
    wordField .chargeOvercurrentState w[Params.wChargeOvercurrentState]? .u ++
    wordField .coulombCapacity w[Params.wCoulombCapacity]? .u ++
    wordField .voltageCapacity w[Params.wVoltageCapacity]? .u ++
    wordField .healthPercent w[Params.wHealthPercent]? .u ++
    rawField .reserved ((w.drop Params.reservedFirst).take (Params.reservedEnd - Params.reservedFirst))

/-- The cells of a list of words, the first of them cell `n`; the absent mark gives none (R150, R151). -/
def cellMap : Nat → List Word → List (Nat × Fixed)
  | _, [] => []
  | n, w :: ws => if w = Params.cellAbsent then cellMap (n + 1) ws else (n, milli w.toNat) :: cellMap (n + 1) ws

/-- `cells_fields` (R150): one field, present whatever the map holds (D18). -/
def cellsFields (payload : List Byte) : FieldMap :=
  [(.cells, .cells (cellMap 1 ((payloadWords payload).take Params.nCells)))]

/-- The fields of the arm a key selects (R123). -/
def armFields (arm : Arm) (payload : List Byte) : FieldMap :=
  match arm with
  | .info => infoFields payload
  | .status => statusFields payload
  | .cells => cellsFields payload
  | .empty20 | .empty50 | .unknown => []

/-- DECODE's record (R120): the gate first, then the arm of the key. -/
def decodeRecord (fr : Frame) : DecodedRecord :=
  if gatePasses fr then ⟨true, fr, armFields (armOfKey (dispatchKey fr.cmd fr.index)) fr.payload⟩ else ⟨false, fr, []⟩

/-- `SNAP.FIELDS[name]` (R170). -/
def fieldLookup (m : FieldMap) (k : FieldId) : Option FieldValue :=
  match m with
  | [] => none
  | (k', v) :: rest => if k' = k then some v else fieldLookup rest k

/-- `SNAP.FIELDS[name] <- value` (R172): insert or overwrite, the identifiers kept in order. -/
def fieldInsert (m : FieldMap) (k : FieldId) (v : FieldValue) : FieldMap :=
  match m with
  | [] => [(k, v)]
  | (k', v') :: rest =>
    if k' = k then (k, v) :: rest
    else if fieldIndex k < fieldIndex k' then (k, v) :: (k', v') :: rest
    else (k', v') :: fieldInsert rest k v

/-- The merge of a record's fields, one after another (R172). -/
def fieldMerge (m new : FieldMap) : FieldMap := new.foldl (fun acc e => fieldInsert acc e.1 e.2) m

/-- SNAP.APPLY (R171, R172): a failed record sets the marker and leaves every field; a good one clears the marker and
merges. -/
def applyRecord (s : State) (r : DecodedRecord) : State :=
  s.setSnap (if r.checksumOk then fieldMerge s.snapFields r.fields else s.snapFields) (errAfter r)

/-- The operation ends with one result and no other effect (R47: reads only). -/
def returns (r : Result) (s : State) : Out := .next (s.returning [r])

/-- The record of an arm, of a Frame that must be well formed (R120, D6). -/
def returnRecord (ok : Bool) (fr : Frame) (fields : FieldMap) (s : State) : Out :=
  if frameWf fr then returns (.record ⟨ok, fr, fields⟩) s else .refused .illFormedFrame

/-- The next pending invocation, and the state in which the rest is pending. -/
def takeInvocation (s : State) : Except Refusal (Instr × State) :=
  match s.calls with
  | [] => .error .noInvocation
  | b :: bs =>
    match decode (b :: bs) with
    | .ok (i, rest) => .ok (i, s.setCalls rest)
    | .error why => .error (.undecodable why)

end Sys2Proof.Machine
end

