-- ==== Sys2Proof/Machine/Checksum.lean ====
section
/-!
DEFINITION. The Checksum Unit (40_checksum.md): CK.COMPUTE and CK.VERIFY.
-/
namespace Sys2Proof.Machine

/-- CK.COMPUTE (R91): the checksum of the bytes between the two of the marker and the two of the trailer; no state. -/
def execCkCompute (data : List Byte) (s : State) : Out :=
  if Params.minCkInput ≤ data.length then returns (.ck (ckValue data)) s else .refused .shortChecksumInput

/-- CK.VERIFY (R92): that checksum against the trailer; a mismatch is the result `false`. -/
def execCkVerify (data : List Byte) (s : State) : Out :=
  if Params.minCkInput ≤ data.length then returns (.ok (ckMatches data)) s else .refused .shortChecksumInput

end Sys2Proof.Machine
end

