-- ==== Sys2Proof/Machine/Decoder.lean ====
section
/-!
DEFINITION. The Field Decoder (42_decoder.md): DECODE and its seven arms. An arm's instruction is DECODE of a frame that
selects it (R76): the operands are the frame's other fields, the key's bytes and, past the gate, the trailer are the
arm's own. Assumption log 9.
-/
namespace Sys2Proof.Machine

/-- DECODE (R120): defined on well-formed Frames only (D6); no state read or written. -/
def execDecode (fr : Frame) (s : State) : Out :=
  if frameWf fr then returns (.record (decodeRecord fr)) s else .refused .illFormedFrame

/-- DEC.BADCK (R127): the frame, both checksums in it, and no fields. -/
def execDecBadck (src tgt cmd index : Byte) (rx : Word) (payload : List Byte) (s : State) : Out :=
  let fr := sealFrame src tgt cmd index rx payload
  if gatePasses fr then .refused .armNotSelected else returnRecord false fr [] s

/-- DEC.INFO (R130 to R135). -/
def execDecInfo (src tgt : Byte) (payload : List Byte) (s : State) : Out :=
  returnRecord true (keyedFrame Params.keyInfo src tgt payload) (infoFields payload) s

/-- DEC.EMPTY20 (R155): accepted, no fields, whatever the payload. -/
def execDecEmpty20 (src tgt : Byte) (payload : List Byte) (s : State) : Out :=
  returnRecord true (keyedFrame Params.keyEmpty20 src tgt payload) [] s

/-- DEC.STATUS (R140 to R145). -/
def execDecStatus (src tgt : Byte) (payload : List Byte) (s : State) : Out :=
  returnRecord true (keyedFrame Params.keyStatus src tgt payload) (statusFields payload) s

/-- DEC.CELLS (R150, R151). -/
def execDecCells (src tgt : Byte) (payload : List Byte) (s : State) : Out :=
  returnRecord true (keyedFrame Params.keyCells src tgt payload) (cellsFields payload) s

/-- DEC.EMPTY50 (R156): accepted, no fields, whatever the payload. -/
def execDecEmpty50 (src tgt : Byte) (payload : List Byte) (s : State) : Out :=
  returnRecord true (keyedFrame Params.keyEmpty50 src tgt payload) [] s

/-- DEC.UNKNOWN (R157): accepted, no fields, under any key but the five. -/
def execDecUnknown (src tgt cmd index : Byte) (payload : List Byte) (s : State) : Out :=
  if armOfKey (dispatchKey cmd index) = .unknown then
    returnRecord true (validFrame src tgt cmd index payload) [] s
  else .refused .armNotSelected

end Sys2Proof.Machine
end

