-- ==== Sys2Proof/Machine/Encoder.lean ====
section
/-!
DEFINITION. The Command Encoder (43_encoder.md): three constants and the general builder. No state (R160).
-/
namespace Sys2Proof.Machine

/-- ENC.INFO (R161): the constant `REQ_INFO`. -/
def execEncInfo (s : State) : Out := returns (.data (requestFrame Config.infoRequest)) s

/-- ENC.STATUS (R162): the constant `REQ_STATUS`. -/
def execEncStatus (s : State) : Out := returns (.data (requestFrame Config.statusRequest)) s

/-- ENC.CELLS (R163): the constant `REQ_CELLS`. -/
def execEncCells (s : State) : Out := returns (.data (requestFrame Config.cellsRequest)) s

/-- ENC.GEN (R165): a payload over 255 bytes is refused (D22). -/
def execEncGen (src tgt cmd index : Byte) (payload : List Byte) (s : State) : Out :=
  if payloadFits payload then returns (.data (buildFrame src tgt cmd index payload)) s else .refused .payloadTooLong

/-- REQFRAME (R80): the ten bytes of a request with these five free bytes, as the encoder returns them (R164).
Assumption log 8. -/
def execReqframe (src tgt cmd index p0 : Byte) (s : State) : Out :=
  returns (.data (requestFrame ⟨src, tgt, cmd, index, p0⟩)) s

end Sys2Proof.Machine
end

