-- ==== Sys2Proof/Machine/Snapshot.lean ====
section
/-!
DEFINITION. The Snapshot Model (44_snapshot.md): SNAP.APPLY and SNAP.READ, each one atomic step (R174).
-/
namespace Sys2Proof.Machine

/-- SNAP.APPLY (R171 of a failed record, R172 of a good one). -/
def execSnapApply (r : DecodedRecord) (s : State) : Out := .next ((applyRecord s r).returning [])

/-- SNAP.READ (R173): a copy of both parts; it hides neither (D24). -/
def execSnapRead (s : State) : Out := returns (.snapshot s.snapFields s.snapErr) s

end Sys2Proof.Machine
end

