-- ==== Sys2Proof/Machine/Synchronizer.lean ====
section
/-!
DEFINITION. The Frame Synchronizer (41_synchronizer.md): FEED and EXTRACT, and the wire frame that arrives in front of
it (R60).
-/
namespace Sys2Proof.Machine

/-- FEED (R100). -/
def execFeed (data : List Byte) (s : State) : Out := feedBuf Config.bufCap data s

/-- EXTRACT (R101 to R109): a destructive read; whatever it discards is gone even when it returns `None` (R48). -/
def execExtract (s : State) : Out :=
  .next ((s.setBuf (extractBuf s.buf).2).returning [.extracted (extractBuf s.buf).1])

/-- FRAME (R60): a frame on the wire reaches the core as the bytes the transport feeds (R41, R100): they go to the back
of `BUF` in wire order. A payload the length byte cannot count is no frame (R61). Assumption log 8. -/
def execFrame (src tgt cmd index : Byte) (payload : List Byte) (checksum : Word) (s : State) : Out :=
  if payloadFits payload then feedBuf Config.bufCap (frameBytes (sealFrame src tgt cmd index checksum payload)) s
  else .refused .payloadTooLong

end Sys2Proof.Machine
end

