-- ==== Sys2Proof/Machine/System.lean ====
section
/-!
DEFINITION. RESET (R200), the four reserved operation codes (R79), and the three pseudo-operations (R82), each the
composition of its expansion in one step (assumption log 10).
-/
namespace Sys2Proof.Machine

/-- RESET (R200): the three items at their reset values; the host's pending invocations are not the core's state. -/
def execReset (s : State) : Out :=
  .next (((s.setBuf State.reset.buf).setSnap State.reset.snapFields State.reset.snapErr).returning [])

/-- RESERVED.C (R79): refused, the model gives the code no step (D1). -/
def execReservedC (_s : State) : Out := .refused (.reservedOp 0xC#8)

/-- RESERVED.D (R79): refused. -/
def execReservedD (_s : State) : Out := .refused (.reservedOp 0xD#8)

/-- RESERVED.E (R79): refused. -/
def execReservedE (_s : State) : Out := .refused (.reservedOp 0xE#8)

/-- RESERVED.F (R79): refused. -/
def execReservedF (_s : State) : Out := .refused (.reservedOp 0xF#8)

/-- DRAIN (R82): EXTRACT until it returns `None`, its results in order. -/
def execDrain (s : State) : Out :=
  .next ((s.setBuf (drainBuf s.buf).2).returning (drainResults (drainBuf s.buf).1))

/-- PUMP (R82): FEED, DRAIN, then DECODE and SNAP.APPLY of each frame in order; the drain's results, then the records.
Every frame of a drain is well formed (R24), so no DECODE in it is refused. -/
def execPump (data : List Byte) (s : State) : Out :=
  match feedBuf Config.bufCap data s with
  | .next s' =>
    let d := drainBuf s'.buf
    let rs := d.1.map decodeRecord
    .next ((rs.foldl applyRecord (s'.setBuf d.2)).returning (drainResults d.1 ++ rs.map .record))
  | other => other

/-- POLL (R82): the three fixed requests in the order the source lists them. -/
def execPoll (s : State) : Out :=
  .next (s.returning [.data (requestFrame Config.infoRequest), .data (requestFrame Config.statusRequest),
    .data (requestFrame Config.cellsRequest)])

end Sys2Proof.Machine
end

