-- ==== Sys2Proof/Machine/Dispatch.lean ====
section
/-! DEFINITION. What each instruction does: one arm per constructor, one call of its meaning. -/
namespace Sys2Proof.Machine

def exec (i : Instr) (s : State) : Host.Outcome State Fault Refusal :=
  match i with
  | .feed data => Sys2Proof.Machine.execFeed data s
  | .extract => Sys2Proof.Machine.execExtract s
  | .ckCompute data => Sys2Proof.Machine.execCkCompute data s
  | .ckVerify data => Sys2Proof.Machine.execCkVerify data s
  | .decode fr => Sys2Proof.Machine.execDecode fr s
  | .encInfo => Sys2Proof.Machine.execEncInfo s
  | .encStatus => Sys2Proof.Machine.execEncStatus s
  | .encCells => Sys2Proof.Machine.execEncCells s
  | .encGen src tgt cmd index payload => Sys2Proof.Machine.execEncGen src tgt cmd index payload s
  | .snapApply r => Sys2Proof.Machine.execSnapApply r s
  | .snapRead => Sys2Proof.Machine.execSnapRead s
  | .reset => Sys2Proof.Machine.execReset s
  -- the four codes the spec refuses (R79)
  | .reservedC => Sys2Proof.Machine.execReservedC s
  | .reservedD => Sys2Proof.Machine.execReservedD s
  | .reservedE => Sys2Proof.Machine.execReservedE s
  | .reservedF => Sys2Proof.Machine.execReservedF s
  -- the arms of DECODE (R76)
  | .decBadck src tgt cmd index rx payload => Sys2Proof.Machine.execDecBadck src tgt cmd index rx payload s
  | .decInfo src tgt payload => Sys2Proof.Machine.execDecInfo src tgt payload s
  | .decEmpty20 src tgt payload => Sys2Proof.Machine.execDecEmpty20 src tgt payload s
  | .decStatus src tgt payload => Sys2Proof.Machine.execDecStatus src tgt payload s
  | .decCells src tgt payload => Sys2Proof.Machine.execDecCells src tgt payload s
  | .decEmpty50 src tgt payload => Sys2Proof.Machine.execDecEmpty50 src tgt payload s
  | .decUnknown src tgt cmd index payload => Sys2Proof.Machine.execDecUnknown src tgt cmd index payload s
  -- the two frame formats (R60, R80)
  | .frame src tgt cmd index payload ck => Sys2Proof.Machine.execFrame src tgt cmd index payload ck s
  | .reqframe src tgt cmd index p0 => Sys2Proof.Machine.execReqframe src tgt cmd index p0 s
  -- the pseudo-operations (R82)
  | .drain => Sys2Proof.Machine.execDrain s
  | .pump data => Sys2Proof.Machine.execPump data s
  | .poll => Sys2Proof.Machine.execPoll s

end Sys2Proof.Machine
end

