-- ==== Sys2Proof/Machine/Step.lean ====
section
/-!
DEFINITION. One step: the next pending invocation of the host is taken and run to its end (R10, R38, R48). The core has
no agent of its own, so with nothing pending there is no step.
-/
namespace Sys2Proof.Machine

/-- One step of the machine. -/
def step (s : State) : Host.Outcome State Fault Refusal :=
  match takeInvocation s with
  | .ok (i, s') => exec i s'
  | .error why => .refused why

/-- The state in which the next invocation is the table word `w` with operands of zeros (the host's question). Nothing
else changes. Assumption log 1 says how a program comes to run. -/
def State.withFetchWord (s : State) (nbits w : Nat) : State := s.setCalls (tableBytes nbits w ++ s.calls)

end Sys2Proof.Machine
end

