-- ==== Sys2Proof/Safety.lean ====
section
/-!
DEFINITION. The words the statements use: what the spec's rules speak of, written without the model's own operations
(sums of bytes, words of a payload, markers), the machine's invariant, which instruction may write which state, and the
host's schedules (runs of EXTRACT, of DECODE and SNAP.APPLY, of chunks each followed by a drain).
-/
namespace Sys2Proof.Safety

open Sys2Proof Sys2Proof.Machine

/-- The unreduced sum of bytes (R90). -/
def byteSum (bs : List Byte) : Nat := (bs.map BitVec.toNat).sum

/-- Word `k` of a payload as a number (R69): there when both its bytes are. -/
def wordOf (p : List Byte) (k : Nat) : Option Nat :=
  match p[2 * k]?, p[2 * k + 1]? with
  | some lo, some hi => some (lo.toNat + 256 * hi.toNat)
  | _, _ => none

/-- The start marker stands at offset `i` (R62). -/
def markerAt (b : List Byte) (i : Nat) : Prop := b[i]? = some 0x5A#8 ∧ b[i + 1]? = some 0xA5#8

/-- The first marker stands at offset `p` (R103; the first: D3). -/
def firstMarkerAt (b : List Byte) (p : Nat) : Prop := markerAt b p ∧ ∀ j < p, ¬ markerAt b j

/-- A known dispatch key (R76): command 0x04 with one of the five indices. -/
def knownKey (cmd index : Byte) : Prop :=
  cmd = 0x04 ∧ (index = 0x10 ∨ index = 0x20 ∨ index = 0x30 ∨ index = 0x40 ∨ index = 0x50)

/-- The `index` of the arm that produces a field (R124, column Arm). -/
def indexOfField : FieldId → Byte
  | .serial | .fwVersion | .capacityMah | .totalCapacityMah | .designVoltageV | .cycleCount | .chargeCount
  | .rawTail => 0x10
  | .functionFlags | .remainingCapacityMah | .remainingPercent | .currentA | .voltageV | .temp1C | .temp2C
  | .balanceStatus | .dischargeOvercurrentState | .chargeOvercurrentState | .coulombCapacity | .voltageCapacity
  | .healthPercent | .reserved => 0x30
  | .cells => 0x40

/-- What stands on the result ports is well formed (R24, R26, R170). -/
def resultWf : Result → Bool
  | .extracted (some f) => frameWf f
  | .record r => recordWf r
  | .snapshot m e => fieldMapWf m && e.all (fun p => p.received != p.computed)
  | .extracted none | .ck _ | .ok _ | .data _ => true

/-- The machine's invariant: the Snapshot's map is in its canonical form and holds under each identifier a value of that
identifier's variant and range (R124, R170); an error marker carries two checksums that differ (R171); a frame or record
on the result ports is well formed (R24, R26). -/
def inv (s : State) : Bool :=
  fieldMapWf s.snapFields && s.snapErr.all (fun p => p.received != p.computed) && s.results.all resultWf

/-- The instructions that may write `BUF` (R20, R22): FEED, EXTRACT, RESET, and those made of them. -/
def writesBuf : Instr → Bool
  | .feed _ | .extract | .reset | .frame _ _ _ _ _ _ | .drain | .pump _ => true
  | _ => false

/-- The instructions that may write the Snapshot (R20): SNAP.APPLY, RESET, and PUMP, made of it. -/
def writesSnap : Instr → Bool
  | .snapApply _ | .reset | .pump _ => true
  | _ => false

/-- The reserved operation codes (R79). -/
def isReserved : Instr → Bool
  | .reservedC | .reservedD | .reservedE | .reservedF => true
  | _ => false

/-- The bytes an instruction appends to `BUF` (R43, R100). -/
def fedBytes : Instr → List Byte
  | .feed data | .pump data => data
  | .frame src tgt cmd index payload ck =>
    [0x5A#8, 0xA5#8, BitVec.ofNat 8 payload.length, src, tgt, cmd, index] ++ payload ++ [loByte ck, hiByte ck]
  | _ => []

/-- `n` EXTRACTs one after another: their results in order, and the state they leave. -/
def extractTimes : Nat → State → Option (List Result × State)
  | 0, s => some ([], s)
  | n + 1, s =>
    match exec .extract s with
    | .next t => (extractTimes n t).map fun q => (t.results ++ q.1, q.2)
    | _ => none

/-- DECODE and SNAP.APPLY of each frame in order (R82): the records, and the state they leave. -/
def decodeApply : List Frame → State → Option (List DecodedRecord × State)
  | [], s => some ([], s)
  | f :: fs, s =>
    match exec (.decode f) s with
    | .next t =>
      match t.results with
      | [.record r] =>
        match exec (.snapApply r) t with
        | .next u => (decodeApply fs u).map fun q => (r :: q.1, q.2)
        | _ => none
      | _ => none
    | _ => none

/-- The frames DRAIN returns from a state (R82). -/
def drainFrames (s : State) : List Frame :=
  match exec .drain s with
  | .next t => t.results.filterMap fun r => match r with
    | .extracted f => f
    | _ => none
  | _ => []

/-- FEED of a chunk, then DRAIN (R110): the state they leave. -/
def feedDrain (chunk : List Byte) (s : State) : State :=
  match exec (.feed chunk) s with
  | .next t => match exec .drain t with
    | .next u => u
    | _ => t
  | _ => s

/-- The frames of a schedule that drains after each chunk (R114). -/
def scheduleFrames : List (List Byte) → State → List Frame
  | [], _ => []
  | c :: cs, s => drainFrames (s.setBuf (s.buf ++ c)) ++ scheduleFrames cs (feedDrain c s)

/-- A drain of this buffer ends in a step-2 discard (R103) whose last byte is 0x5A (R205): some run of EXTRACTs that
returned frames leaves a buffer of 9 bytes or more, without a marker, ending so. -/
def discardsHalfMarker (s : State) : Prop :=
  ∃ n rs t, extractTimes n s = some (rs, t) ∧ (∀ r ∈ rs, r ≠ .extracted none) ∧
    9 ≤ t.buf.length ∧ (∀ i, ¬ markerAt t.buf i) ∧ t.buf.getLast? = some 0x5A#8

/-- No drain of the schedule discards half of a split marker (R114's condition): none discards a final 0x5A when the next
byte of the stream is 0xA5. -/
def noSplitMarker : List (List Byte) → State → Prop
  | [], _ => True
  | c :: cs, s =>
    ¬ (discardsHalfMarker (s.setBuf (s.buf ++ c)) ∧ cs.flatten.head? = some 0xA5#8) ∧ noSplitMarker cs (feedDrain c s)

end Sys2Proof.Safety
end

