-- ==== Sys2Proof/Certificates/Slice0/Obligations.lean ====
section
/-!
DEFINITION. The statements for the provers, in the order of OBLIGATIONS.json. Each says what the machine does in the
words of the spec's rules: sums of bytes, words of a payload, markers, the field table. A next state is written as the
old one with the fields the instruction writes, so that everything else is unchanged. What an operation returns stands in
`results`, the model's form of the result ports of R16 and R79 (assumption log 3); an operation whose result is none leaves
it empty.
-/

open Sys2Proof Sys2Proof.Machine Sys2Proof.Safety

/-- The model's encoding loses nothing: a well-formed instruction's bytes decode to it, whatever follows them. The
packing is the model's own (assumption log 2); the words are R79, R76, R60 and R80. -/
def Obligations.DecodeOfEncodeIsTheInstruction : Prop :=
  ∀ (i : Instr) (rest : List Byte), i.wf = true → decode (encode i ++ rest) = .ok (i, rest)

/-- Of the model's own decoder of invocations, whose packing and whose rejection of operands no rule admits are the
model's choice (assumption log 2; arms and records: log 9 and 26): whatever the bytes, what it yields is well formed, and
it took at least one byte off the front. -/
def Obligations.DecoderYieldsWellFormedInstructions : Prop :=
  ∀ (bs : List Byte) (i : Instr) (rest : List Byte), decode bs = .ok (i, rest) →
    i.wf = true ∧ ∃ used, used ≠ [] ∧ bs = used ++ rest

/-- A step runs the instruction its pending bytes decode to, with those bytes taken off the queue. -/
def Obligations.StepRunsTheDecodedInstruction : Prop :=
  ∀ (s : State) (i : Instr) (rest : List Byte), decode s.calls = .ok (i, rest) →
    step s = exec i { s with calls := rest }

/-- Nothing pending, or bytes that are no invocation: there is no step (R10; assumption log 1 and 2). -/
def Obligations.StepNeedsAnInvocation : Prop :=
  (∀ s : State, s.calls = [] → step s = .refused .noInvocation) ∧
  ∀ (s : State) (why : Reject), s.calls ≠ [] → decode s.calls = .error why → step s = .refused (.undecodable why)

/-- The words of the tables of R79, R76, R60 and R80 decode to what they stand for: the sixteen operation codes, the gate
bit 0, the five keys and one other, a wire frame and a request frame written out byte by byte. That a code is asked for as
whole bytes with operands of zeros after it, the bytes 3 and 4 that select the two frame formats, and the reading of the
byte 0 as FEED are the model's choice (assumption log 2). -/
def Obligations.TableWordsDecode : Prop :=
  decodeTableWord 8 0x0 = some (.feed []) ∧ decodeTableWord 8 0x1 = some .extract ∧
  decodeTableWord 8 0x2 = some (.ckCompute [0, 0, 0, 0]) ∧ decodeTableWord 8 0x3 = some (.ckVerify [0, 0, 0, 0]) ∧
  decodeTableWord 8 0x4 = some (.decode ⟨0, 0, 0, 0, 0, [], 0, 0xFFFF⟩) ∧ decodeTableWord 8 0x5 = some .encInfo ∧
  decodeTableWord 8 0x6 = some .encStatus ∧ decodeTableWord 8 0x7 = some .encCells ∧
  decodeTableWord 8 0x8 = some (.encGen 0 0 0 0 []) ∧
  decodeTableWord 8 0x9 = some (.snapApply ⟨false, ⟨0, 0, 0, 0, 0, [], 0, 0xFFFF⟩, []⟩) ∧
  decodeTableWord 8 0xA = some .snapRead ∧ decodeTableWord 8 0xB = some .reset ∧
  decodeTableWord 8 0xC = some .reservedC ∧ decodeTableWord 8 0xD = some .reservedD ∧
  decodeTableWord 8 0xE = some .reservedE ∧ decodeTableWord 8 0xF = some .reservedF ∧
  decodeTableWord 1 0x0 = some (.decBadck 0 0 0 0 0 []) ∧
  decodeTableWord 16 0x0410 = some (.decInfo 0 0 []) ∧ decodeTableWord 16 0x0420 = some (.decEmpty20 0 0 []) ∧
  decodeTableWord 16 0x0430 = some (.decStatus 0 0 []) ∧ decodeTableWord 16 0x0440 = some (.decCells 0 0 []) ∧
  decodeTableWord 16 0x0450 = some (.decEmpty50 0 0 []) ∧
  decodeTableWord 16 0x1004 = some (.decUnknown 0 0 0x10 0x04 []) ∧
  decode [3, 0x5A, 0xA5, 0x02, 0x22, 0x3E, 0x04, 0x50, 0xAB, 0xCD, 0xD1, 0xFD] =
    .ok (.frame 0x22 0x3E 0x04 0x50 [0xAB, 0xCD] 0xFDD1, []) ∧
  decode [4, 0x5A, 0xA5, 0x01, 0x3E, 0x22, 0x01, 0x10, 0x20, 0x6D, 0xFF] =
    .ok (.reqframe 0x3E 0x22 0x01 0x10 0x20, [])

/-- R90: the checksum of any byte sequence is the complement of its sum modulo 65536; of the empty one it is 0xFFFF. -/
def Obligations.ChecksumIsTheComplementOfTheSum : Prop :=
  (∀ bs : List Byte, (cksum16 bs).toNat = 65535 - byteSum bs % 65536) ∧ cksum16 [] = 0xFFFF

/-- R94's laws: the order of the bytes does not matter, the checksum of a concatenation is the sum of both and one, and
0xFFFF and 0x0000 mark a sum that is 0 and 65535 modulo 65536. -/
def Obligations.ChecksumLaws : Prop :=
  (∀ a b : List Byte, a.Perm b → cksum16 a = cksum16 b) ∧
  (∀ a b : List Byte, (cksum16 (a ++ b)).toNat = ((cksum16 a).toNat + (cksum16 b).toNat + 1) % 65536) ∧
  (∀ a : List Byte, cksum16 a = 0xFFFF ↔ byteSum a % 65536 = 0) ∧
  ∀ a : List Byte, cksum16 a = 0x0000 ↔ byteSum a % 65536 = 65535

/-- R93: over a frame of length 252 or less the modulo never acts; over one of length 253 it can. -/
def Obligations.ChecksumWrapsOnlyFromLength253 : Prop :=
  (∀ fr : Frame, frameWf fr = true → fr.length.toNat ≤ 252 → byteSum (frameBody fr) < 65536) ∧
  ∃ fr : Frame, frameWf fr = true ∧ fr.length.toNat = 253 ∧ 65536 ≤ byteSum (frameBody fr)

/-- CK.COMPUTE (R91) on any four bytes or more: two bytes, the covered region, two bytes. The region's checksum is
returned; the four are not looked at; nothing else changes. -/
def Obligations.CkComputeReturnsTheChecksum : Prop :=
  ∀ (m0 m1 lo hi : Byte) (body : List Byte) (s : State), ∃ w : Word,
    exec (.ckCompute (m0 :: m1 :: (body ++ [lo, hi]))) s = .next { s with results := [.ck w] } ∧
    w.toNat = 65535 - byteSum body % 65536

/-- CK.VERIFY (R92): the same region's checksum against the last two bytes, the first of them the low one. -/
def Obligations.CkVerifyComparesTheTrailer : Prop :=
  ∀ (m0 m1 lo hi : Byte) (body : List Byte) (s : State), ∃ b : Bool,
    exec (.ckVerify (m0 :: m1 :: (body ++ [lo, hi]))) s = .next { s with results := [.ok b] } ∧
    (b = true ↔ lo.toNat + 256 * hi.toNat = 65535 - byteSum body % 65536)

/-- Fewer than four bytes: both are refused (R91, R92; the spec's decision D23). -/
def Obligations.ChecksumUnitRefusesShortInput : Prop :=
  ∀ (data : List Byte) (s : State), data.length < 4 →
    exec (.ckCompute data) s = .refused .shortChecksumInput ∧ exec (.ckVerify data) s = .refused .shortChecksumInput

/-- FEED (R100): the bytes go to the back of `BUF` and nothing else happens; two FEEDs are one FEED of both; a FEED of
nothing leaves `BUF` (D25). `BUF` is unbounded (D2, assumption log 5). -/
def Obligations.FeedAppends : Prop :=
  (∀ (data : List Byte) (s : State), exec (.feed data) s = .next { s with buf := s.buf ++ data, results := [] }) ∧
  (∀ (a b : List Byte) (s t : State), exec (.feed a) s = .next t → exec (.feed b) t = exec (.feed (a ++ b)) s) ∧
  ∀ s t : State, exec (.feed []) s = .next t → t.buf = s.buf

/-- D2: under a finite capacity a FEED that fits appends, and one that does not has no step. -/
def Obligations.FiniteCapacityRefusesOverflow : Prop :=
  ∀ (cap : Nat) (data : List Byte) (s : State),
    (s.buf.length + data.length ≤ cap →
      feedBuf (some cap) data s = .next { s with buf := s.buf ++ data, results := [] }) ∧
    (cap < s.buf.length + data.length → feedBuf (some cap) data s = .refused .bufferOverflow)

/-- R102: with fewer than nine bytes buffered EXTRACT returns `None` and leaves `BUF`, whatever the bytes are. -/
def Obligations.ExtractKeepsAShortBuffer : Prop :=
  ∀ s : State, s.buf.length < 9 → exec .extract s = .next { s with results := [.extracted none] }

/-- R103's second half: nine bytes or more without a marker anywhere are all discarded, a final 0x5A included. -/
def Obligations.ExtractDiscardsNoise : Prop :=
  ∀ s : State, 9 ≤ s.buf.length → (∀ i, ¬ markerAt s.buf i) →
    exec .extract s = .next { s with buf := [], results := [.extracted none] }

/-- R105 and R107: the first marker (D3) stands at `p`, and behind it there is no length byte yet, or fewer than
`9 + length` bytes: the bytes in front of the marker go, the rest stays, `None`. -/
def Obligations.ExtractWaitsForAPartialFrame : Prop :=
  ∀ (s : State) (p : Nat), 9 ≤ s.buf.length → markerAt s.buf p → (∀ j < p, ¬ markerAt s.buf j) →
    (s.buf.length < p + 3 ∨ ∃ len, s.buf[p + 2]? = some len ∧ s.buf.length < p + 9 + len.toNat) →
    exec .extract s = .next { s with buf := s.buf.drop p, results := [.extracted none] }

/-- R104 (with D3) and R112: bytes in front of the first marker make no other difference than their own loss. -/
def Obligations.ExtractSkipsLeadIn : Prop :=
  ∀ (s : State) (p : Nat), 9 ≤ s.buf.length → markerAt s.buf p → (∀ j < p, ¬ markerAt s.buf j) →
    exec .extract s = exec .extract { s with buf := s.buf.drop p }

/-- R108, R109 and R67: a whole frame at the front of `BUF` is cut off and returned, with its fields by position, the
trailer read little-endian and the computed checksum filled in, whatever the trailer is; exactly its bytes leave. -/
def Obligations.ExtractCutsTheFrameAtTheFront : Prop :=
  ∀ (s : State) (len src tgt cmd index lo hi : Byte) (payload rest : List Byte),
    s.buf = [0x5A, 0xA5, len, src, tgt, cmd, index] ++ payload ++ [lo, hi] ++ rest →
    payload.length = len.toNat →
    ∃ f : Frame, exec .extract s = .next { s with buf := rest, results := [.extracted (some f)] } ∧
      frameWf f = true ∧ f.length = len ∧ f.src = src ∧ f.tgt = tgt ∧ f.cmd = cmd ∧ f.index = index ∧ f.payload = payload ∧
      f.checksumReceived.toNat = lo.toNat + 256 * hi.toNat ∧
      f.checksumComputed.toNat = 65535 - byteSum ([len, src, tgt, cmd, index] ++ payload) % 65536

/-- R24, R25 and R116: a returned frame is well formed, its byte image stood in `BUF` behind bytes with no marker before
it, and `BUF` now holds what stood behind it. That the marker taken is the first is the spec's decision D3. -/
def Obligations.ExtractedFrameWasInTheBuffer : Prop :=
  ∀ (s t : State) (f : Frame), exec .extract s = .next t → t.results = [.extracted (some f)] →
    frameWf f = true ∧ ∃ leadIn : List Byte, s.buf = leadIn ++ frameBytes f ++ t.buf ∧
      ∀ j < leadIn.length, ¬ markerAt s.buf j

/-- R113 and R33: after an EXTRACT that returned `None`, `BUF` holds at most 8 bytes it found, or nothing, or the marker
alone, or a marker-led partial frame; in every case at most 263 bytes. -/
def Obligations.ExtractNoneBoundsTheBuffer : Prop :=
  ∀ s t : State, exec .extract s = .next t → t.results = [.extracted none] →
    t.buf.length ≤ 263 ∧
    ((s.buf.length ≤ 8 ∧ t.buf = s.buf) ∨ t.buf = [] ∨ t.buf = [0x5A, 0xA5] ∨
      ∃ (len : Byte) (more : List Byte), t.buf = [0x5A, 0xA5, len] ++ more ∧ t.buf.length < 9 + len.toNat)

/-- R49: an EXTRACT after one that returned `None` returns `None` and changes nothing. -/
def Obligations.ExtractWaitIsStable : Prop :=
  ∀ s t : State, exec .extract s = .next t → t.results = [.extracted none] → exec .extract t = .next t

/-- R205: nine bytes or more without a marker, the last of them 0x5A: the EXTRACT discards it, and when the next bytes
fed start with 0xA5, `BUF` holds them without the other half. -/
def Obligations.SplitMarkerIsLost : Prop :=
  ∀ (s : State) (noise rest : List Byte), s.buf = noise ++ [0x5A] → 8 ≤ noise.length → (∀ i, ¬ markerAt s.buf i) →
    ∃ t : State, exec .extract s = .next t ∧ t.buf = [] ∧ t.results = [.extracted none] ∧
      exec (.feed (0xA5 :: rest)) t = .next { t with buf := 0xA5 :: rest, results := [] }

/-- R114, what holds of chunking: draining after every chunk returns the same frames as draining once at the end,
provided that no drain discards a final 0x5A when the next byte of the stream is 0xA5. A drain is DRAIN (D21), one step
in the model (assumption log 10). -/
def Obligations.ChunkingKeepsTheFrames : Prop :=
  ∀ (chunk : List Byte) (chunks : List (List Byte)) (s : State), noSplitMarker (chunk :: chunks) s →
    scheduleFrames (chunk :: chunks) s = scheduleFrames [(chunk :: chunks).flatten] s

/-- R114's counterexample (V-X20): eight zero bytes and a frame give it when fed whole, and nothing when drained after the
ninth byte. -/
def Obligations.ChunkingCanLoseAFrame : Prop :=
  scheduleFrames [[0, 0, 0, 0, 0, 0, 0, 0, 0x5A, 0xA5, 0x00, 0x22, 0x3E, 0x04, 0x20, 0x7B, 0xFF]] State.reset =
    [⟨0, 0x22, 0x3E, 0x04, 0x20, [], 0xFF7B, 0xFF7B⟩] ∧
  scheduleFrames [[0, 0, 0, 0, 0, 0, 0, 0, 0x5A], [0xA5, 0x00, 0x22, 0x3E, 0x04, 0x20, 0x7B, 0xFF]] State.reset = []

/-- DRAIN (R82) is EXTRACT repeated until it returns `None`: the same results in order, the same state, and `BUF` at 263
bytes or less (R113). The pseudo-operations are the spec's notation (D21), one step each in the model (assumption log 10). -/
def Obligations.DrainRepeatsExtract : Prop :=
  ∀ s : State, ∃ (fs : List Frame) (t : State),
    exec .drain s = .next t ∧ t.results = fs.map (fun f => .extracted (some f)) ++ [.extracted none] ∧
    (∃ u : State, extractTimes (fs.length + 1) s = some (t.results, u) ∧ t = { u with results := t.results }) ∧
    t.buf.length ≤ 263

/-- PUMP (R82) is FEED, then DRAIN, then DECODE and SNAP.APPLY of each frame in order (D21; one step in the model, assumption log 10). -/
def Obligations.PumpIsItsExpansion : Prop :=
  ∀ (data : List Byte) (s : State), ∃ (s1 s2 u : State) (fs : List Frame) (rs : List DecodedRecord),
    exec (.feed data) s = .next s1 ∧ exec .drain s1 = .next s2 ∧
    s2.results = fs.map (fun f => .extracted (some f)) ++ [.extracted none] ∧
    decodeApply fs s2 = some (rs, u) ∧
    exec (.pump data) s = .next { u with results := s2.results ++ rs.map .record }

/-- POLL (R82) returns what ENC.INFO, ENC.STATUS and ENC.CELLS return, in the order R82 lists them (D21;
assumption log 10), and changes nothing else. -/
def Obligations.PollIsItsExpansion : Prop :=
  ∀ s : State, ∃ a b c : List Byte,
    exec .encInfo s = .next { s with results := [.data a] } ∧
    exec .encStatus s = .next { s with results := [.data b] } ∧
    exec .encCells s = .next { s with results := [.data c] } ∧
    exec .poll s = .next { s with results := [.data a, .data b, .data c] }

/-- R161 to R164 and R80: each fixed request is a constant, the same from every state: ten bytes, marker, length 1, five
free bytes, and the complement of the six bytes' sum, low byte first; it is what ENC.GEN and REQFRAME return for those
five bytes. The free bytes are open (D12, assumption log 6). That REQFRAME is run as a request with given bytes is the
model's choice (assumption log 8), and ENC.GEN is the spec's (D22). -/
def Obligations.RequestsAreValidFrames : Prop :=
  ∃ info status cells : RequestBytes,
    ∀ e ∈ [(Instr.encInfo, info), (Instr.encStatus, status), (Instr.encCells, cells)], ∃ lo hi : Byte,
      lo.toNat + 256 * hi.toNat =
        65535 - (1 + e.2.src.toNat + e.2.tgt.toNat + e.2.cmd.toNat + e.2.index.toNat + e.2.p0.toNat) ∧
      ∀ s : State,
        exec e.1 s = .next { s with results :=
          [.data [0x5A, 0xA5, 0x01, e.2.src, e.2.tgt, e.2.cmd, e.2.index, e.2.p0, lo, hi]] } ∧
        exec (.encGen e.2.src e.2.tgt e.2.cmd e.2.index [e.2.p0]) s = exec e.1 s ∧
        exec (.reqframe e.2.src e.2.tgt e.2.cmd e.2.index e.2.p0) s = exec e.1 s

/-- R80: REQFRAME returns the ten bytes of its five; the checksum lies between 0xFB03 and 0xFFFE. That the row
is run as a request with given bytes is the model's reading (assumption log 8). -/
def Obligations.ReqframeShape : Prop :=
  ∀ (src tgt cmd index p0 : Byte) (s : State), ∃ lo hi : Byte,
    exec (.reqframe src tgt cmd index p0) s =
      .next { s with results := [.data [0x5A, 0xA5, 0x01, src, tgt, cmd, index, p0, lo, hi]] } ∧
    lo.toNat + 256 * hi.toNat = 65535 - (1 + src.toNat + tgt.toNat + cmd.toNat + index.toNat + p0.toNat) ∧
    0xFB03 ≤ lo.toNat + 256 * hi.toNat ∧ lo.toNat + 256 * hi.toNat ≤ 0xFFFE

/-- ENC.GEN (R165): marker, length, header, payload, checksum low byte first; a payload over 255 bytes is refused (D22). -/
def Obligations.EncGenBuildsTheFrame : Prop :=
  ∀ (src tgt cmd index : Byte) (payload : List Byte) (s : State),
    (payload.length ≤ 255 → ∃ lo hi : Byte,
      exec (.encGen src tgt cmd index payload) s = .next { s with results :=
        [.data ([0x5A, 0xA5, BitVec.ofNat 8 payload.length, src, tgt, cmd, index] ++ payload ++ [lo, hi])] } ∧
      lo.toNat + 256 * hi.toNat =
        65535 - byteSum ([BitVec.ofNat 8 payload.length, src, tgt, cmd, index] ++ payload) % 65536) ∧
    (255 < payload.length → exec (.encGen src tgt cmd index payload) s = .refused .payloadTooLong)

/-- R95: what ENC.GEN (D22) returns verifies. -/
def Obligations.EncodedFrameVerifies : Prop :=
  ∀ (src tgt cmd index : Byte) (payload : List Byte) (s : State), payload.length ≤ 255 →
    ∃ e : List Byte, exec (.encGen src tgt cmd index payload) s = .next { s with results := [.data e] } ∧
      exec (.ckVerify e) s = .next { s with results := [.ok true] }

/-- R166: what ENC.GEN (D22) returns, fed into an empty `BUF`, is extracted whole, with the operands as its fields and equal
checksums, leaves `BUF` empty, and decodes to a good record. -/
def Obligations.EncodedFrameIsReceived : Prop :=
  ∀ (src tgt cmd index : Byte) (payload : List Byte) (s : State), payload.length ≤ 255 → s.buf = [] →
    ∃ (e : List Byte) (t : State) (f : Frame) (fields : FieldMap),
      exec (.encGen src tgt cmd index payload) s = .next { s with results := [.data e] } ∧
      exec (.feed e) s = .next t ∧
      exec .extract t = .next { s with results := [.extracted (some f)] } ∧
      frameBytes f = e ∧ f.src = src ∧ f.tgt = tgt ∧ f.cmd = cmd ∧ f.index = index ∧ f.payload = payload ∧
      f.checksumReceived = f.checksumComputed ∧
      exec (.decode f) s = .next { s with results := [.record ⟨true, f, fields⟩] }

/-- FRAME (R60): the wire bytes of the frame, its trailer whatever it is, go to the back of `BUF` (assumption log 8); a
payload over 255 bytes is refused. -/
def Obligations.WireFrameArrives : Prop :=
  ∀ (src tgt cmd index : Byte) (payload : List Byte) (ck : Word) (s : State),
    (payload.length ≤ 255 → ∃ len lo hi : Byte,
      exec (.frame src tgt cmd index payload ck) s = .next { s with
        buf := s.buf ++ ([0x5A, 0xA5, len, src, tgt, cmd, index] ++ payload ++ [lo, hi]), results := [] } ∧
      len.toNat = payload.length ∧ lo.toNat + 256 * hi.toNat = ck.toNat) ∧
    (255 < payload.length → exec (.frame src tgt cmd index payload ck) s = .refused .payloadTooLong)

/-- R120 and R180: DECODE of a well-formed frame always returns a record, with the frame in it and the flag of the gate,
and changes nothing else; of an ill-formed one it is refused (D6). -/
def Obligations.DecodeIsTotalOnWellFormedFrames : Prop :=
  ∀ (fr : Frame) (s : State),
    (frameWf fr = true → ∃ (ok : Bool) (fields : FieldMap),
      exec (.decode fr) s = .next { s with results := [.record ⟨ok, fr, fields⟩] } ∧
      (ok = true ↔ fr.checksumReceived = fr.checksumComputed)) ∧
    (frameWf fr = false → exec (.decode fr) s = .refused .illFormedFrame)

/-- R127: a frame whose checksums differ gives `checksum_ok = false`, the frame and no fields, whatever its key; DEC.BADCK
is that. -/
def Obligations.BadChecksumGivesNoFields : Prop :=
  ∀ (fr : Frame) (s : State), frameWf fr = true → fr.checksumReceived ≠ fr.checksumComputed →
    exec (.decode fr) s = .next { s with results := [.record ⟨false, fr, []⟩] } ∧
    exec (.decBadck fr.src fr.tgt fr.cmd fr.index fr.checksumReceived fr.payload) s =
      .next { s with results := [.record ⟨false, fr, []⟩] }

/-- R76 and R123: past the gate, all 16 bits of the key select the arm, and DECODE is that arm's instruction. -/
def Obligations.DecodeIsTheSelectedArm : Prop :=
  ∀ (fr : Frame) (s : State), frameWf fr = true → fr.checksumReceived = fr.checksumComputed →
    exec (.decode fr) s =
      if fr.cmd = 0x04 ∧ fr.index = 0x10 then exec (.decInfo fr.src fr.tgt fr.payload) s
      else if fr.cmd = 0x04 ∧ fr.index = 0x20 then exec (.decEmpty20 fr.src fr.tgt fr.payload) s
      else if fr.cmd = 0x04 ∧ fr.index = 0x30 then exec (.decStatus fr.src fr.tgt fr.payload) s
      else if fr.cmd = 0x04 ∧ fr.index = 0x40 then exec (.decCells fr.src fr.tgt fr.payload) s
      else if fr.cmd = 0x04 ∧ fr.index = 0x50 then exec (.decEmpty50 fr.src fr.tgt fr.payload) s
      else exec (.decUnknown fr.src fr.tgt fr.cmd fr.index fr.payload) s

/-- Each of the seven arms' instructions on a payload the length byte cannot count is refused as no well-formed frame;
DEC.UNKNOWN under a known key and DEC.BADCK with the frame's own checksum are refused as selecting another arm
(assumption log 9). -/
def Obligations.ArmsRefuseOtherFrames : Prop :=
  (∀ (src tgt : Byte) (payload : List Byte) (s : State), 255 < payload.length →
    ∀ i ∈ [Instr.decInfo src tgt payload, .decEmpty20 src tgt payload, .decStatus src tgt payload,
      .decCells src tgt payload, .decEmpty50 src tgt payload], exec i s = .refused .illFormedFrame) ∧
  (∀ (src tgt cmd index : Byte) (payload : List Byte) (s : State), 255 < payload.length → ¬ knownKey cmd index →
    exec (.decUnknown src tgt cmd index payload) s = .refused .illFormedFrame) ∧
  (∀ (src tgt cmd index : Byte) (received : Word) (payload : List Byte) (s : State), 255 < payload.length →
    received ≠ cksum16 ([BitVec.ofNat 8 payload.length, src, tgt, cmd, index] ++ payload) →
    exec (.decBadck src tgt cmd index received payload) s = .refused .illFormedFrame) ∧
  (∀ (src tgt cmd index : Byte) (payload : List Byte) (s : State),
    knownKey cmd index → exec (.decUnknown src tgt cmd index payload) s = .refused .armNotSelected) ∧
  ∀ (src tgt cmd index : Byte) (payload : List Byte) (s : State),
    exec (.decBadck src tgt cmd index (cksum16 ([BitVec.ofNat 8 payload.length, src, tgt, cmd, index] ++ payload))
      payload) s = .refused .armNotSelected

/-- R155, R156 and R157: keys 0x0420 and 0x0450 and every key outside the five give an accepted record without fields,
whatever the payload. -/
def Obligations.EmptyArmsGiveNoFields : Prop :=
  ∀ (fr : Frame) (s : State), frameWf fr = true → fr.checksumReceived = fr.checksumComputed →
    (fr.cmd = 0x04 ∧ fr.index = 0x20 → exec (.decEmpty20 fr.src fr.tgt fr.payload) s =
      .next { s with results := [.record ⟨true, fr, []⟩] }) ∧
    (fr.cmd = 0x04 ∧ fr.index = 0x50 → exec (.decEmpty50 fr.src fr.tgt fr.payload) s =
      .next { s with results := [.record ⟨true, fr, []⟩] }) ∧
    (¬ (fr.cmd = 0x04 ∧
        (fr.index = 0x10 ∨ fr.index = 0x20 ∨ fr.index = 0x30 ∨ fr.index = 0x40 ∨ fr.index = 0x50)) →
      exec (.decUnknown fr.src fr.tgt fr.cmd fr.index fr.payload) s =
        .next { s with results := [.record ⟨true, fr, []⟩] }) ∧
    ((fr.cmd = 0x04 ∧ (fr.index = 0x20 ∨ fr.index = 0x50)) ∨
      ¬ (fr.cmd = 0x04 ∧
        (fr.index = 0x10 ∨ fr.index = 0x20 ∨ fr.index = 0x30 ∨ fr.index = 0x40 ∨ fr.index = 0x50)) →
      exec (.decode fr) s = .next { s with results := [.record ⟨true, fr, []⟩] })

/-- R141 to R144: the word-backed status fields of DEC.STATUS, each from its word and there when the word is: nine raw
words, the signed current and the unsigned voltage in hundredths, the two biased temperature bytes. That a status field is
there exactly when its word is rests on R125's own extension of the omit rule to every arm (assumption log 23). -/
def Obligations.StatusFieldValues : Prop :=
  ∀ (src tgt : Byte) (payload : List Byte) (s : State), payload.length ≤ 255 →
    ∃ (fr : Frame) (m : FieldMap),
      exec (.decStatus src tgt payload) s = .next { s with results := [.record ⟨true, fr, m⟩] } ∧
      exec (.decode fr) s = exec (.decStatus src tgt payload) s ∧
      fr.cmd = 0x04 ∧ fr.index = 0x30 ∧ fr.src = src ∧ fr.tgt = tgt ∧ fr.payload = payload ∧
      (∀ e ∈ [(FieldId.functionFlags, 0), (.remainingCapacityMah, 1), (.remainingPercent, 2), (.balanceStatus, 6),
          (.dischargeOvercurrentState, 7), (.chargeOvercurrentState, 8), (.coulombCapacity, 9), (.voltageCapacity, 10),
          (.healthPercent, 11)],
        fieldLookup m e.1 = (wordOf payload e.2).map fun n => .u (BitVec.ofNat 16 n)) ∧
      fieldLookup m .currentA =
        (wordOf payload 3).map (fun n => .fx ⟨if n < 32768 then (n : Int) else (n : Int) - 65536, 2⟩) ∧
      fieldLookup m .voltageV = (wordOf payload 4).map (fun n => .fx ⟨(n : Int), 2⟩) ∧
      fieldLookup m .temp1C = (wordOf payload 5).map (fun n => .s (((n % 256 : Nat) : Int) - 20)) ∧
      fieldLookup m .temp2C = (wordOf payload 5).map (fun n => .s (((n / 256 : Nat) : Int) - 20))

/-- R133 and R134: the plain word-backed info fields of DEC.INFO: two capacities and two counts, raw, and the design
voltage in hundredths, unsigned. -/
def Obligations.InfoWordFieldValues : Prop :=
  ∀ (src tgt : Byte) (payload : List Byte) (s : State), payload.length ≤ 255 →
    ∃ (fr : Frame) (m : FieldMap),
      exec (.decInfo src tgt payload) s = .next { s with results := [.record ⟨true, fr, m⟩] } ∧
      exec (.decode fr) s = exec (.decInfo src tgt payload) s ∧
      fr.cmd = 0x04 ∧ fr.index = 0x10 ∧ fr.src = src ∧ fr.tgt = tgt ∧ fr.payload = payload ∧
      (∀ e ∈ [(FieldId.capacityMah, 8), (.totalCapacityMah, 9), (.cycleCount, 11), (.chargeCount, 12)],
        fieldLookup m e.1 = (wordOf payload e.2).map fun n => .u (BitVec.ofNat 16 n)) ∧
      fieldLookup m .designVoltageV = (wordOf payload 10).map (fun n => .fx ⟨(n : Int), 2⟩)

/-- R131, R132, R75 and R72 with the spec's decisions D14, D15 and D17: the serial number has one character for each of
the first 14 payload bytes there are, an ASCII code itself and any other byte the placeholder, whose code is no ASCII
code; the firmware version is the four nibbles of word 7 in decimal, most significant first, joined by full stops. -/
def Obligations.InfoTextFieldValues : Prop :=
  ∀ (src tgt : Byte) (payload : List Byte) (s : State), payload.length ≤ 255 →
    ∃ (fr : Frame) (m : FieldMap) (serial : List TextChar),
      exec (.decInfo src tgt payload) s = .next { s with results := [.record ⟨true, fr, m⟩] } ∧
      fieldLookup m .serial = some (.text serial) ∧
      serial.map charCode =
        (payload.take 14).map (fun b => if b.toNat ≤ 0x7F then b.toNat else Config.replacement) ∧
      0x7F < Config.replacement ∧
      (fieldLookup m .fwVersion = none ↔ payload.length < 16) ∧
      ∀ n, wordOf payload 7 = some n → ∃ version : List TextChar,
        fieldLookup m .fwVersion = some (.text version) ∧
        version.map charCode = (toString (n / 4096) ++ "." ++ toString (n / 256 % 16) ++ "." ++
          toString (n / 16 % 16) ++ "." ++ toString (n % 16)).toList.map Char.toNat

/-- R135 and R145 with the spec's decision D16: the raw tail holds those of words 13 to 15 there are, the reserved field
those of words 12 to 15; each is omitted when there is none. -/
def Obligations.RawTailFields : Prop :=
  ∀ (src tgt : Byte) (payload : List Byte) (s : State), payload.length ≤ 255 →
    ∃ (fi fs : Frame) (mi ms : FieldMap),
      exec (.decInfo src tgt payload) s = .next { s with results := [.record ⟨true, fi, mi⟩] } ∧
      exec (.decStatus src tgt payload) s = .next { s with results := [.record ⟨true, fs, ms⟩] } ∧
      (payload.length < 28 → fieldLookup mi .rawTail = none) ∧
      (28 ≤ payload.length → ∃ ws, fieldLookup mi .rawTail = some (.raw ws) ∧
        ws.length = min 16 (payload.length / 2) - 13 ∧
        ∀ k < ws.length, ws[k]?.map BitVec.toNat = wordOf payload (13 + k)) ∧
      (payload.length < 26 → fieldLookup ms .reserved = none) ∧
      (26 ≤ payload.length → ∃ ws, fieldLookup ms .reserved = some (.raw ws) ∧
        ws.length = min 16 (payload.length / 2) - 12 ∧
        ∀ k < ws.length, ws[k]?.map BitVec.toNat = wordOf payload (12 + k))

/-- R150 and R151 with the spec's decision D18: DEC.CELLS gives the one field `cells`, and cell `n`, 1 to 10, is in it
exactly when word `n - 1` is there and is not 0xFFFF, at that word's thousandth; numbers rise strictly. -/
def Obligations.CellFieldValues : Prop :=
  ∀ (src tgt : Byte) (payload : List Byte) (s : State), payload.length ≤ 255 →
    ∃ (fr : Frame) (cm : List (Nat × Fixed)),
      exec (.decCells src tgt payload) s = .next { s with results := [.record ⟨true, fr, [(.cells, .cells cm)]⟩] } ∧
      exec (.decode fr) s = exec (.decCells src tgt payload) s ∧
      fr.cmd = 0x04 ∧ fr.index = 0x40 ∧ fr.src = src ∧ fr.tgt = tgt ∧ fr.payload = payload ∧
      (∀ n x, (n, x) ∈ cm ↔
        1 ≤ n ∧ n ≤ 10 ∧ ∃ w, wordOf payload (n - 1) = some w ∧ w ≠ 0xFFFF ∧ x = ⟨(w : Int), 3⟩) ∧
      (cm.map Prod.fst).Pairwise (· < ·)

/-- R125: a field backed by word `k` is in the record exactly when `length >= 2 k + 2`, each field by itself, in every
arm; a half-present word is absent. The source states the rule for the info row; that it holds in every arm is the spec's
own inference ("This spec applies it to every arm"; assumption log 23). -/
def Obligations.FieldsAreOmittedOneByOne : Prop :=
  ∀ (fr : Frame) (s : State) (m : FieldMap), frameWf fr = true →
    exec (.decode fr) s = .next { s with results := [.record ⟨true, fr, m⟩] } →
    (fr.cmd = 0x04 ∧ fr.index = 0x10 →
      ∀ e ∈ [(FieldId.fwVersion, 7), (.capacityMah, 8), (.totalCapacityMah, 9), (.designVoltageV, 10),
          (.cycleCount, 11), (.chargeCount, 12)],
        (fieldLookup m e.1).isSome = true ↔ 2 * e.2 + 2 ≤ fr.length.toNat) ∧
    (fr.cmd = 0x04 ∧ fr.index = 0x30 →
      ∀ e ∈ [(FieldId.functionFlags, 0), (.remainingCapacityMah, 1), (.remainingPercent, 2), (.currentA, 3),
          (.voltageV, 4), (.temp1C, 5), (.temp2C, 5), (.balanceStatus, 6), (.dischargeOvercurrentState, 7),
          (.chargeOvercurrentState, 8), (.coulombCapacity, 9), (.voltageCapacity, 10), (.healthPercent, 11)],
        (fieldLookup m e.1).isSome = true ↔ 2 * e.2 + 2 ≤ fr.length.toNat) ∧
    (fr.cmd = 0x04 ∧ fr.index = 0x40 →
      ∀ cm n x, fieldLookup m .cells = some (.cells cm) → (n, x) ∈ cm → 2 * (n - 1) + 2 ≤ fr.length.toNat)

/-- R124, R126, R28 and R26: every record DECODE returns is well formed: identifiers in the table's order, none twice,
each value of its field's variant and range, no field under a failed gate. And it holds identifiers of the selected arm
only: under any other key, and from surplus words, there is none. The names are the spec's (D10, assumption log 21), the
surplus words' fate too (D26, assumption log 23). -/
def Obligations.DecodedRecordsAreWellFormed : Prop :=
  ∀ (fr : Frame) (s : State), frameWf fr = true →
    ∃ r : DecodedRecord, exec (.decode fr) s = .next { s with results := [.record r] } ∧ recordWf r = true ∧
      ∀ e ∈ r.fields, fr.cmd = 0x04 ∧ fr.index = indexOfField e.1

/-- R158: two frames of the same key and payload that pass the gate decode to the same fields, whatever their addresses
and whatever the state. -/
def Obligations.AddressesDoNotMatterToTheFields : Prop :=
  ∀ (f g : Frame) (s t : State), frameWf f = true → frameWf g = true →
    f.checksumReceived = f.checksumComputed → g.checksumReceived = g.checksumComputed →
    f.cmd = g.cmd → f.index = g.index → f.payload = g.payload →
    ∃ m : FieldMap, exec (.decode f) s = .next { s with results := [.record ⟨true, f, m⟩] } ∧
      exec (.decode g) t = .next { t with results := [.record ⟨true, g, m⟩] }

/-- R171: SNAP.APPLY of a failed record sets the marker to its two checksums, over any earlier one, and leaves every
field. -/
def Obligations.FailedRecordSetsTheMarker : Prop :=
  ∀ (r : DecodedRecord) (s : State), r.checksumOk = false →
    exec (.snapApply r) s =
      .next { s with snapErr := some ⟨r.frame.checksumReceived, r.frame.checksumComputed⟩, results := [] }

/-- R172: SNAP.APPLY of a good record clears the marker, and each key reads as the record's value where the record has
it, as before elsewhere. -/
def Obligations.GoodRecordMergesItsFields : Prop :=
  ∀ (r : DecodedRecord) (s : State), r.checksumOk = true → fieldMapCanonical r.fields = true →
    ∃ m : FieldMap, exec (.snapApply r) s = .next { s with snapErr := none, snapFields := m, results := [] } ∧
      ∀ k, fieldLookup m k = (fieldLookup r.fields k).or (fieldLookup s.snapFields k)

/-- R175 (d): applying one record twice leaves the state of applying it once. -/
def Obligations.ApplyIsIdempotent : Prop :=
  ∀ (r : DecodedRecord) (s t : State), fieldMapCanonical r.fields = true → fieldMapCanonical s.snapFields = true →
    exec (.snapApply r) s = .next t → exec (.snapApply r) t = .next t

/-- R175 (a), over every instruction: only RESET removes a key from the Snapshot. -/
def Obligations.OnlyResetRemovesAField : Prop :=
  ∀ (i : Instr) (s t : State), exec i s = .next t → i ≠ .reset →
    ∀ k, (fieldLookup s.snapFields k).isSome = true → (fieldLookup t.snapFields k).isSome = true

/-- R173: SNAP.READ returns a copy of both parts of the Snapshot and changes nothing else. -/
def Obligations.SnapReadReturnsBothParts : Prop :=
  ∀ s : State, exec .snapRead s = .next { s with results := [.snapshot s.snapFields s.snapErr] }

/-- RESET (R200, the spec's decision D9): the three items at their reset values from any state; the host's pending
invocations are not touched (assumption log 1), and nothing is returned. -/
def Obligations.ResetEmptiesTheCore : Prop :=
  ∀ s : State, exec .reset s = .next { s with buf := [], snapFields := [], snapErr := none, results := [] }

/-- The state after reset (R35, R36, R201; D9): the spec's three items; nothing returned and nothing pending is the
model's choice (assumption log 1 and 3). -/
def Obligations.StateAfterReset : Prop :=
  State.reset.buf = [] ∧ State.reset.snapFields = [] ∧ State.reset.snapErr = none ∧
    State.reset.results = [] ∧ State.reset.calls = []

/-- R79 (D1): the four reserved codes are refused from every state. -/
def Obligations.ReservedCodesAreRefused : Prop :=
  ∀ s : State, exec .reservedC s = .refused (.reservedOp 0xC) ∧ exec .reservedD s = .refused (.reservedOp 0xD) ∧
    exec .reservedE s = .refused (.reservedOp 0xE) ∧ exec .reservedF s = .refused (.reservedOp 0xF)

/-- R180: every well-formed instruction but the reserved codes runs to a next state, from every state. That FEED, FRAME
and PUMP always do rests on the model's unbounded `BUF` (D2, assumption log 5: false of a finite one); that FRAME and
REQFRAME, the decoder's arms and the pseudo-operations are instructions is the model's choice (assumption log 8, 9, 10). -/
def Obligations.EveryAdmittedOperationCompletes : Prop :=
  ∀ (i : Instr) (s : State), i.wf = true → isReserved i = false → ∃ t, exec i s = .next t

/-- R20 and R22, over every instruction: `BUF` is written only by FEED, EXTRACT, RESET and what is made of them, the
Snapshot only by SNAP.APPLY, RESET and PUMP. That FRAME, DRAIN and PUMP are among the writers is the model's choice of
what they do (assumption log 8 and 10). And no instruction touches what the host has pending, which is the model's own
queue (assumption log 1). -/
def Obligations.OnlyTheOwnersWriteState : Prop :=
  ∀ (i : Instr) (s t : State), exec i s = .next t →
    (writesBuf i = false → t.buf = s.buf) ∧
    (writesSnap i = false → t.snapFields = s.snapFields ∧ t.snapErr = s.snapErr) ∧
    t.calls = s.calls

/-- R43 and R22, over every instruction but RESET: the bytes in `BUF` are the last of the bytes that were there and the
bytes fed, in order; nothing is reordered, inserted or kept from the middle. FRAME feeds its wire bytes and PUMP its operand
(assumption log 8 and 10). -/
def Obligations.BufferIsFirstInFirstOut : Prop :=
  ∀ (i : Instr) (s t : State), exec i s = .next t → i ≠ .reset → ∃ gone, s.buf ++ fedBytes i = gone ++ t.buf

/-- R181 and R189: the labels say what the operation did (the labels are the spec's, D19, assumption log 22; the first
marker, D3). Of an EXTRACT: X0 exactly when it returned a frame, X1 exactly below nine bytes, X2 exactly on noise, X3
exactly when the first marker stands behind other bytes, X4 exactly when it is the last two bytes, X5 exactly when a
length byte stands behind it and fewer than `9 + length` bytes do; after X4 and X5 the result is `None` and `BUF` starts
with the marker. Of a DECODE: Y1 exactly when the gate failed, Y0 and Y2 exactly when it passed under one of the five keys
and under another, Y3 exactly when a placeholder stands in the serial number; Y3 only together with Y0. -/
def Obligations.ConditionsSayWhatTheOperationDid : Prop :=
  (∀ s t : State, exec .extract s = .next t →
    (Condition.frame ∈ extractConditions s.buf ↔ ∃ f, t.results = [.extracted (some f)]) ∧
    (Condition.short ∈ extractConditions s.buf ↔ s.buf.length < 9) ∧
    (Condition.noise ∈ extractConditions s.buf ↔ 9 ≤ s.buf.length ∧ ∀ i, ¬ markerAt s.buf i) ∧
    (Condition.leadIn ∈ extractConditions s.buf ↔ 9 ≤ s.buf.length ∧ ∃ p, 0 < p ∧ firstMarkerAt s.buf p) ∧
    (Condition.needLen ∈ extractConditions s.buf ↔
      9 ≤ s.buf.length ∧ ∃ p, firstMarkerAt s.buf p ∧ s.buf.length = p + 2) ∧
    (Condition.partialFrame ∈ extractConditions s.buf ↔
      9 ≤ s.buf.length ∧ ∃ p len, firstMarkerAt s.buf p ∧ s.buf[p + 2]? = some len ∧
        s.buf.length < p + 9 + len.toNat) ∧
    (Condition.needLen ∈ extractConditions s.buf → t.buf = [0x5A, 0xA5] ∧ t.results = [.extracted none]) ∧
    (Condition.partialFrame ∈ extractConditions s.buf →
      ∃ (len : Byte) (more : List Byte), t.buf = [0x5A, 0xA5, len] ++ more ∧ t.buf.length < 9 + len.toNat ∧
        t.results = [.extracted none])) ∧
  ∀ (fr : Frame) (s : State), frameWf fr = true →
    ∃ r : DecodedRecord, exec (.decode fr) s = .next { s with results := [.record r] } ∧
      (Condition.badCk ∈ decodeConditions fr ↔ r.checksumOk = false) ∧
      (Condition.ok ∈ decodeConditions fr ↔ r.checksumOk = true ∧ knownKey fr.cmd fr.index) ∧
      (Condition.unknown ∈ decodeConditions fr ↔ r.checksumOk = true ∧ ¬ knownKey fr.cmd fr.index) ∧
      (Condition.repl ∈ decodeConditions fr ↔
        ∃ cs, fieldLookup r.fields .serial = some (.text cs) ∧ TextChar.replacement ∈ cs) ∧
      (Condition.repl ∈ decodeConditions fr → Condition.ok ∈ decodeConditions fr)

/-- The invariant holds after reset. -/
def Obligations.ResetSatisfiesTheInvariant : Prop := inv State.reset = true

/-- Every step keeps the invariant, from every state that has it: the Snapshot's map in its canonical form with fitting
values (R124, R170), an error marker of two checksums that differ (R171), well-formed frames and records on the result
ports (R24, R26). Which records a step's SNAP.APPLY may be given is the model's choice (assumption log 26). -/
def Obligations.StepKeepsTheInvariant : Prop :=
  ∀ s t : State, inv s = true → step s = .next t → inv t = true
end

