-- ==== Sys2Proof/Laws/Bytes.lean ====
section
/-!
SUPPORT. Spec lemmas of the byte operations: words and their halves, the checksum as the complement of a sum, a frame's
byte image, well-formed frames, the dispatch key.
-/
namespace Sys2Proof.Machine

open Sys2Proof.Safety

theorem le16_toNat (lo hi : Byte) : (le16 lo hi).toNat = lo.toNat + 256 * hi.toNat := by
  have := lo.isLt; have := hi.isLt
  simp only [le16, BitVec.toNat_ofNat]; omega

theorem loByte_toNat (v : Word) : (loByte v).toNat = v.toNat % 256 := by simp [loByte]

theorem hiByte_toNat (v : Word) : (hiByte v).toNat = v.toNat / 256 := by
  have := v.isLt
  simp only [hiByte, BitVec.toNat_ofNat]; omega

@[simp] theorem le16_lo_hi (v : Word) : le16 (loByte v) (hiByte v) = v := by
  apply BitVec.eq_of_toNat_eq
  rw [le16_toNat, loByte_toNat, hiByte_toNat]; omega

@[simp] theorem loByte_le16 (lo hi : Byte) : loByte (le16 lo hi) = lo := by
  have := lo.isLt; have := hi.isLt
  apply BitVec.eq_of_toNat_eq
  rw [loByte_toNat, le16_toNat]; omega

@[simp] theorem hiByte_le16 (lo hi : Byte) : hiByte (le16 lo hi) = hi := by
  have := lo.isLt; have := hi.isLt
  apply BitVec.eq_of_toNat_eq
  rw [hiByte_toNat, le16_toNat]; omega

theorem byteSum_nil : byteSum [] = 0 := rfl

theorem byteSum_cons (b : Byte) (bs : List Byte) : byteSum (b :: bs) = b.toNat + byteSum bs := by simp [byteSum]

theorem byteSum_append (a b : List Byte) : byteSum (a ++ b) = byteSum a + byteSum b := by simp [byteSum]

/-- The accumulator of R90 holds the sum so far, reduced. -/
theorem accumulate_toNat (bs : List Byte) (acc : Word) :
    (bs.foldl (fun acc b => acc + b.setWidth 16) acc).toNat = (acc.toNat + byteSum bs) % 65536 := by
  induction bs generalizing acc with
  | nil => have := acc.isLt; simp [byteSum_nil]; omega
  | cons b bs ih =>
    have := b.isLt
    rw [List.foldl_cons, ih, byteSum_cons]
    simp only [BitVec.toNat_add, BitVec.toNat_setWidth]; omega

/-- The checksum is the complement of the reduced sum (R90). -/
theorem cksum16_toNat (bs : List Byte) : (cksum16 bs).toNat = 65535 - byteSum bs % 65536 := by
  have h : ∀ w : Word, (w ^^^ 0xFFFF#16).toNat = 65535 - w.toNat := by
    intro w
    have e : w ^^^ 0xFFFF#16 = ~~~ w := by
      have : (0xFFFF#16 : Word) = BitVec.allOnes 16 := by decide
      rw [this, BitVec.xor_allOnes]
    rw [e, BitVec.toNat_not]
  rw [cksum16, h, accumulate_toNat]; simp

/-- The covered region lies between two bytes in front and two behind (R91). -/
theorem covered_between (m0 m1 lo hi : Byte) (body : List Byte) :
    covered (m0 :: m1 :: (body ++ [lo, hi])) = body := by
  have e : (m0 :: m1 :: (body ++ [lo, hi])).length - Params.trlSize = body.length + 2 := by simp
  rw [covered, e]
  simp [slice]

/-- The trailer is the last two bytes (R92). -/
theorem wordAt_trailer (front : List Byte) (lo hi : Byte) :
    wordAt (front ++ [lo, hi]) front.length = le16 lo hi := by
  simp [wordAt, byteAt, List.getD_eq_getElem?_getD]

theorem frameWf_iff (fr : Frame) :
    frameWf fr = true ↔ fr.payload.length = fr.length.toNat ∧ fr.checksumComputed = cksum16 (frameBody fr) := by
  simp [frameWf]

/-- A frame built from its parts is well formed when its length byte can count the payload (R24). -/
theorem sealFrame_wf (src tgt cmd index : Byte) (rx : Word) (p : List Byte) :
    frameWf (sealFrame src tgt cmd index rx p) = payloadFits p := by
  simp only [frameWf, sealFrame, frameBody, BEq.rfl, Bool.and_true, payloadFits, BitVec.toNat_ofNat, Params.maxLen]
  congr 1
  apply propext
  constructor <;> intro h <;> omega

/-- A well-formed frame is the one built from its parts. -/
theorem sealFrame_of_wf (fr : Frame) (h : frameWf fr = true) :
    sealFrame fr.src fr.tgt fr.cmd fr.index fr.checksumReceived fr.payload = fr := by
  obtain ⟨h1, h2⟩ := (frameWf_iff fr).mp h
  have e : BitVec.ofNat 8 fr.payload.length = fr.length := by
    apply BitVec.eq_of_toNat_eq
    have := fr.length.isLt
    rw [BitVec.toNat_ofNat, h1]; omega
  cases fr
  simp only [sealFrame, frameBody] at *
  subst e h2
  rfl

theorem payloadFits_of_wf (fr : Frame) (h : frameWf fr = true) : payloadFits fr.payload = true := by
  have := fr.length.isLt
  have := ((frameWf_iff fr).mp h).1
  simp [payloadFits]; omega

/-- A valid frame passes the gate (R121, R165). -/
@[simp] theorem gatePasses_validFrame (src tgt cmd index : Byte) (p : List Byte) :
    gatePasses (validFrame src tgt cmd index p) = true := by
  simp [gatePasses, validFrame, sealFrame]

@[simp] theorem validFrame_wf (src tgt cmd index : Byte) (p : List Byte) :
    frameWf (validFrame src tgt cmd index p) = payloadFits p := sealFrame_wf ..

@[simp] theorem gatePasses_keyedFrame (key : Word) (src tgt : Byte) (p : List Byte) :
    gatePasses (keyedFrame key src tgt p) = true := gatePasses_validFrame ..

@[simp] theorem keyedFrame_wf (key : Word) (src tgt : Byte) (p : List Byte) :
    frameWf (keyedFrame key src tgt p) = payloadFits p := validFrame_wf ..

/-- A well-formed frame that passes the gate is the valid frame of its parts. -/
theorem validFrame_of_wf (fr : Frame) (h : frameWf fr = true) (g : gatePasses fr = true) :
    validFrame fr.src fr.tgt fr.cmd fr.index fr.payload = fr := by
  have e := sealFrame_of_wf fr h
  have h2 := congrArg Frame.checksumComputed e
  have g' : fr.checksumReceived = fr.checksumComputed := by simpa [gatePasses] using g
  simp only [sealFrame] at h2
  rw [validFrame, h2, ← g', e]

/-- The builder writes the byte image of the valid frame (R25, R165). -/
theorem buildFrame_eq (src tgt cmd index : Byte) (p : List Byte) :
    buildFrame src tgt cmd index p = frameBytes (validFrame src tgt cmd index p) := rfl

theorem frameBytes_length (fr : Frame) : (frameBytes fr).length = 9 + fr.payload.length := by
  simp [frameBytes, frameBody]; omega

/-- A key is its two bytes (R65). -/
theorem dispatchKey_eq_iff (cmd index : Byte) (key : Word) :
    dispatchKey cmd index = key ↔ cmd = hiByte key ∧ index = loByte key := by
  constructor
  · rintro rfl; simp [dispatchKey]
  · rintro ⟨rfl, rfl⟩; simp [dispatchKey]

/-- Under its own key, a well-formed frame that passes the gate is the frame of that key's arm. -/
theorem keyedFrame_of_wf (fr : Frame) (key : Word) (h : frameWf fr = true) (g : gatePasses fr = true)
    (k : dispatchKey fr.cmd fr.index = key) : keyedFrame key fr.src fr.tgt fr.payload = fr := by
  obtain ⟨hc, hi⟩ := (dispatchKey_eq_iff ..).mp k
  rw [keyedFrame, ← hc, ← hi, validFrame_of_wf fr h g]

@[simp] theorem dispatchKey_keyedFrame (key : Word) (src tgt : Byte) (p : List Byte) :
    dispatchKey (keyedFrame key src tgt p).cmd (keyedFrame key src tgt p).index = key :=
  (dispatchKey_eq_iff ..).mpr ⟨rfl, rfl⟩

/-- A word of a payload is there when both its bytes are (R69). -/
theorem payloadWords_getElem? (p : List Byte) (k : Nat) :
    (payloadWords p)[k]?.map BitVec.toNat = wordOf p k := by
  induction p using payloadWords.induct generalizing k with
  | case1 lo hi rest ih =>
    cases k with
    | zero => simp [payloadWords, wordOf, le16_toNat]
    | succ k =>
      have e1 : 2 * (k + 1) = 2 * k + 1 + 1 := by omega
      simp only [payloadWords, List.getElem?_cons_succ, ih, wordOf, e1]
  | case2 p h =>
    have hl : p.length ≤ 1 := by
      match p, h with
      | [], _ => simp
      | [_], _ => simp
      | a :: b :: r, h => exact absurd rfl (h a b r)
    have e : payloadWords p = [] := by
      match p, h with
      | [], _ => rfl
      | [_], _ => rfl
      | a :: b :: r, h => exact absurd rfl (h a b r)
    have h2 : p[2 * k + 1]? = none := List.getElem?_eq_none (by omega)
    simp only [e, wordOf, h2]
    cases p[2 * k]? <;> simp

theorem payloadWords_length (p : List Byte) : (payloadWords p).length = p.length / 2 := by
  induction p using payloadWords.induct with
  | case1 lo hi rest ih => simp only [payloadWords, List.length_cons, ih]; omega
  | case2 p h =>
    match p, h with
    | [], _ => rfl
    | [_], _ => simp [payloadWords]
    | a :: b :: r, h => exact absurd rfl (h a b r)

end Sys2Proof.Machine
end

