-- ==== Sys2Proof/Laws/State.lean ====
section
/-! SUPPORT. What each update of the state leaves in each field, so that no proof unfolds a record update. -/
namespace Sys2Proof.Machine

@[simp] theorem State.setBuf_buf (s : State) (b : List Byte) : (s.setBuf b).buf = b := rfl
@[simp] theorem State.setBuf_snapFields (s : State) (b : List Byte) : (s.setBuf b).snapFields = s.snapFields := rfl
@[simp] theorem State.setBuf_snapErr (s : State) (b : List Byte) : (s.setBuf b).snapErr = s.snapErr := rfl
@[simp] theorem State.setBuf_results (s : State) (b : List Byte) : (s.setBuf b).results = s.results := rfl
@[simp] theorem State.setBuf_calls (s : State) (b : List Byte) : (s.setBuf b).calls = s.calls := rfl

@[simp] theorem State.setSnap_buf (s : State) (m : FieldMap) (e : Option CkPair) : (s.setSnap m e).buf = s.buf := rfl
@[simp] theorem State.setSnap_snapFields (s : State) (m : FieldMap) (e : Option CkPair) : (s.setSnap m e).snapFields = m := rfl
@[simp] theorem State.setSnap_snapErr (s : State) (m : FieldMap) (e : Option CkPair) : (s.setSnap m e).snapErr = e := rfl
@[simp] theorem State.setSnap_results (s : State) (m : FieldMap) (e : Option CkPair) : (s.setSnap m e).results = s.results := rfl
@[simp] theorem State.setSnap_calls (s : State) (m : FieldMap) (e : Option CkPair) : (s.setSnap m e).calls = s.calls := rfl

@[simp] theorem State.returning_buf (s : State) (rs : List Result) : (s.returning rs).buf = s.buf := rfl
@[simp] theorem State.returning_snapFields (s : State) (rs : List Result) : (s.returning rs).snapFields = s.snapFields := rfl
@[simp] theorem State.returning_snapErr (s : State) (rs : List Result) : (s.returning rs).snapErr = s.snapErr := rfl
@[simp] theorem State.returning_results (s : State) (rs : List Result) : (s.returning rs).results = rs := rfl
@[simp] theorem State.returning_calls (s : State) (rs : List Result) : (s.returning rs).calls = s.calls := rfl

@[simp] theorem State.setCalls_buf (s : State) (bs : List Byte) : (s.setCalls bs).buf = s.buf := rfl
@[simp] theorem State.setCalls_snapFields (s : State) (bs : List Byte) : (s.setCalls bs).snapFields = s.snapFields := rfl
@[simp] theorem State.setCalls_snapErr (s : State) (bs : List Byte) : (s.setCalls bs).snapErr = s.snapErr := rfl
@[simp] theorem State.setCalls_results (s : State) (bs : List Byte) : (s.setCalls bs).results = s.results := rfl
@[simp] theorem State.setCalls_calls (s : State) (bs : List Byte) : (s.setCalls bs).calls = bs := rfl

@[simp] theorem State.reset_buf : State.reset.buf = [] := rfl
@[simp] theorem State.reset_snapFields : State.reset.snapFields = [] := rfl
@[simp] theorem State.reset_snapErr : State.reset.snapErr = none := rfl
@[simp] theorem State.reset_results : State.reset.results = [] := rfl
@[simp] theorem State.reset_calls : State.reset.calls = [] := rfl

end Sys2Proof.Machine
end

