-- ==== Sys2Proof/Laws/Snapshot.lean ====
section
/-!
SUPPORT. The Snapshot's map: reading after an insert and a merge, and that every operation on it keeps its canonical form
and the fit of its values.
-/
namespace Sys2Proof.Machine

open Sys2Proof.Safety

theorem fieldIndex_injective {a b : FieldId} (h : fieldIndex a = fieldIndex b) : a = b := by
  cases a <;> cases b <;> first | rfl | (simp [fieldIndex] at h)

/-- The value just written is read; every other key reads as before (R172). -/
theorem fieldLookup_insert (m : FieldMap) (k k' : FieldId) (v : FieldValue) :
    fieldLookup (fieldInsert m k v) k' = if k = k' then some v else fieldLookup m k' := by
  induction m with
  | nil => simp [fieldInsert, fieldLookup]
  | cons e m ih =>
    obtain ⟨k₀, v₀⟩ := e
    simp only [fieldInsert]
    by_cases h0 : k₀ = k
    · subst h0
      by_cases h : k₀ = k' <;> simp [fieldLookup, h]
    · by_cases hlt : fieldIndex k < fieldIndex k₀
      · simp only [if_neg h0, if_pos hlt, fieldLookup]
      · by_cases h : k = k'
        · subst h
          simp [fieldLookup, h0, hlt, ih]
        · simp only [if_neg h0, if_neg hlt, fieldLookup, ih, if_neg h]

theorem keysAbove_iff (k : FieldId) (m : FieldMap) :
    keysAbove k m = true ↔ ∀ e ∈ m, fieldIndex k < fieldIndex e.1 := by simp [keysAbove]

theorem fieldMapFits_iff (m : FieldMap) : fieldMapFits m = true ↔ ∀ e ∈ m, valueFits e.1 e.2 = true := by
  simp [fieldMapFits]

theorem canonical_cons (e : FieldId × FieldValue) (m : FieldMap) :
    fieldMapCanonical (e :: m) = true ↔ (∀ x ∈ m, fieldIndex e.1 < fieldIndex x.1) ∧ fieldMapCanonical m = true := by
  simp [fieldMapCanonical, keysAbove]

/-- A key below every key of the map is not in it. -/
theorem fieldLookup_none {m : FieldMap} {k : FieldId} (h : ∀ x ∈ m, fieldIndex k < fieldIndex x.1) :
    fieldLookup m k = none := by
  induction m with
  | nil => rfl
  | cons e m ih =>
    have hne : e.1 ≠ k := fun he => by
      have := h e (by simp)
      rw [he] at this; omega
    simp only [fieldLookup, if_neg hne]
    exact ih fun x hx => h x (by simp [hx])

/-- What an insert holds: the new entry, or an old one. -/
theorem mem_fieldInsert {m : FieldMap} {k : FieldId} {v : FieldValue} {x : FieldId × FieldValue}
    (h : x ∈ fieldInsert m k v) : x = (k, v) ∨ x ∈ m := by
  induction m with
  | nil => simpa [fieldInsert] using h
  | cons e m ih =>
    obtain ⟨k₀, v₀⟩ := e
    simp only [fieldInsert] at h
    split at h
    · rcases List.mem_cons.mp h with h | h
      · exact .inl h
      · exact .inr (by simp [h])
    · split at h
      · rcases List.mem_cons.mp h with h | h
        · exact .inl h
        · exact .inr h
      · rcases List.mem_cons.mp h with h | h
        · exact .inr (by simp [h])
        · rcases ih h with h | h
          · exact .inl h
          · exact .inr (by simp [h])

/-- An insert keeps the canonical form. -/
theorem canonical_insert {m : FieldMap} (k : FieldId) (v : FieldValue) (h : fieldMapCanonical m = true) :
    fieldMapCanonical (fieldInsert m k v) = true := by
  induction m with
  | nil => rfl
  | cons e m ih =>
    obtain ⟨k₀, v₀⟩ := e
    obtain ⟨ha, hm⟩ := (canonical_cons ..).mp h
    simp only [fieldInsert]
    split
    · next he => subst he; exact (canonical_cons ..).mpr ⟨ha, hm⟩
    · next he =>
      split
      · next hlt =>
        refine (canonical_cons ..).mpr ⟨fun x hx => ?_, h⟩
        rcases List.mem_cons.mp hx with rfl | hx
        · exact hlt
        · exact Nat.lt_trans hlt (ha x hx)
      · next hge =>
        refine (canonical_cons ..).mpr ⟨fun x hx => ?_, ih hm⟩
        rcases mem_fieldInsert hx with rfl | hx
        · have : fieldIndex k₀ ≠ fieldIndex k := fun hi => he (fieldIndex_injective hi)
          simp only at *; omega
        · exact ha x hx

/-- A merge keeps the canonical form, whatever the record's list. -/
theorem canonical_merge (m new : FieldMap) (h : fieldMapCanonical m = true) :
    fieldMapCanonical (fieldMerge m new) = true := by
  induction new generalizing m with
  | nil => exact h
  | cons e new ih => exact ih _ (canonical_insert e.1 e.2 h)

/-- A merge keeps the fit of the values. -/
theorem fits_merge (m new : FieldMap) (h : fieldMapFits m = true) (hn : fieldMapFits new = true) :
    fieldMapFits (fieldMerge m new) = true := by
  induction new generalizing m with
  | nil => exact h
  | cons e new ih =>
    simp only [fieldMapFits_iff] at h hn ih
    simp only [fieldMapFits_iff]
    refine ih _ (fun x hx => ?_) fun x hx => hn x (by simp [hx])
    rcases mem_fieldInsert hx with rfl | hx
    · exact hn e (by simp)
    · exact h x hx

/-- A merge reads as the record's value where the record has the key, and as before elsewhere (R172). -/
theorem fieldLookup_merge (m new : FieldMap) (k : FieldId) (hc : fieldMapCanonical new = true) :
    fieldLookup (fieldMerge m new) k = (fieldLookup new k).or (fieldLookup m k) := by
  induction new generalizing m with
  | nil => simp [fieldMerge, fieldLookup]
  | cons e new ih =>
    obtain ⟨k₀, v₀⟩ := e
    obtain ⟨ha, hm⟩ := (canonical_cons ..).mp hc
    have := ih (fieldInsert m k₀ v₀) hm
    rw [fieldMerge, List.foldl_cons] at *
    rw [this, fieldLookup_insert]
    by_cases h : k₀ = k
    · subst h
      simp [fieldLookup, fieldLookup_none ha]
    · simp [fieldLookup, h]

/-- Two maps in canonical form that read alike are one list. -/
theorem canonical_ext {m m' : FieldMap} (h : fieldMapCanonical m = true) (h' : fieldMapCanonical m' = true)
    (e : ∀ k, fieldLookup m k = fieldLookup m' k) : m = m' := by
  induction m generalizing m' with
  | nil =>
    cases m' with
    | nil => rfl
    | cons x m' => have := e x.1; simp [fieldLookup] at this
  | cons x m ih =>
    cases m' with
    | nil => have := e x.1; simp [fieldLookup] at this
    | cons y m' =>
      obtain ⟨kx, vx⟩ := x
      obtain ⟨ky, vy⟩ := y
      obtain ⟨ha, hm⟩ := (canonical_cons ..).mp h
      obtain ⟨ha', hm'⟩ := (canonical_cons ..).mp h'
      have hk : kx = ky := by
        rcases Nat.lt_trichotomy (fieldIndex kx) (fieldIndex ky) with hl | hl | hl
        · have h1 := e kx
          rw [fieldLookup_none (m := (ky, vy) :: m')] at h1
          · simp [fieldLookup] at h1
          · intro z hz
            rcases List.mem_cons.mp hz with rfl | hz
            · exact hl
            · exact Nat.lt_trans hl (ha' z hz)
        · exact fieldIndex_injective hl
        · have h1 := e ky
          rw [fieldLookup_none (m := (kx, vx) :: m)] at h1
          · simp [fieldLookup] at h1
          · intro z hz
            rcases List.mem_cons.mp hz with rfl | hz
            · exact hl
            · exact Nat.lt_trans hl (ha z hz)
      subst hk
      have hv : vx = vy := by simpa [fieldLookup] using e kx
      subst hv
      congr 1
      refine ih hm hm' fun k => ?_
      by_cases hkk : kx = k
      · subst hkk; rw [fieldLookup_none ha, fieldLookup_none ha']
      · simpa [fieldLookup, hkk] using e k

@[simp] theorem applyRecord_buf (s : State) (r : DecodedRecord) : (applyRecord s r).buf = s.buf := rfl
@[simp] theorem applyRecord_calls (s : State) (r : DecodedRecord) : (applyRecord s r).calls = s.calls := rfl
@[simp] theorem applyRecord_results (s : State) (r : DecodedRecord) : (applyRecord s r).results = s.results := rfl
@[simp] theorem applyRecord_snapErr (s : State) (r : DecodedRecord) : (applyRecord s r).snapErr = errAfter r := rfl
@[simp] theorem applyRecord_snapFields (s : State) (r : DecodedRecord) :
    (applyRecord s r).snapFields = if r.checksumOk then fieldMerge s.snapFields r.fields else s.snapFields := rfl

/-- SNAP.APPLY one after another leaves `BUF`, the pending invocations and the result ports (R20). -/
theorem applyRecords_frame (rs : List DecodedRecord) (s : State) :
    (rs.foldl applyRecord s).buf = s.buf ∧ (rs.foldl applyRecord s).calls = s.calls ∧
      (rs.foldl applyRecord s).results = s.results := by
  induction rs generalizing s with
  | nil => exact ⟨rfl, rfl, rfl⟩
  | cons r rs ih => exact ih (applyRecord s r)

end Sys2Proof.Machine
end

