-- ==== Sys2Proof/Laws/Decoder.lean ====
section
/-!
SUPPORT. The Field Decoder's results: every field map it builds is in canonical form and its values fit their
identifiers, and a record of a well-formed frame is well formed.
-/
namespace Sys2Proof.Machine

open Sys2Proof.Safety

/-- A field map in canonical form whose values fit and whose keys lie before place `n` of the table (R124). -/
def Fits (n : Nat) (m : FieldMap) : Prop :=
  fieldMapCanonical m = true ∧ fieldMapFits m = true ∧ ∀ x ∈ m, fieldIndex x.1 < n

theorem Fits.nil (n : Nat) : Fits n [] := ⟨rfl, rfl, by simp⟩

theorem canonical_append_one {m : FieldMap} (k : FieldId) (v : FieldValue) (h : fieldMapCanonical m = true)
    (hb : ∀ x ∈ m, fieldIndex x.1 < fieldIndex k) : fieldMapCanonical (m ++ [(k, v)]) = true := by
  induction m with
  | nil => rfl
  | cons e m ih =>
    obtain ⟨ha, hm⟩ := (canonical_cons ..).mp h
    refine (canonical_cons ..).mpr ⟨fun x hx => ?_, ih hm fun x hx => hb x (by simp [hx])⟩
    rcases List.mem_append.mp hx with hx | hx
    · exact ha x hx
    · have : x = (k, v) := by simpa using hx
      subst this
      exact hb e (by simp)

/-- One more field behind the others. -/
theorem Fits.snoc {n : Nat} {m : FieldMap} (h : Fits n m) (k : FieldId) (v : FieldValue) (hn : n ≤ fieldIndex k)
    (hv : valueFits k v = true) : Fits (fieldIndex k + 1) (m ++ [(k, v)]) := by
  obtain ⟨hc, hf, hb⟩ := h
  refine ⟨canonical_append_one k v hc fun x hx => by have := hb x hx; omega, ?_, fun x hx => ?_⟩
  · simp only [fieldMapFits_iff] at *
    intro x hx
    rcases List.mem_append.mp hx with hx | hx
    · exact hf x hx
    · have : x = (k, v) := by simpa using hx
      subst this; exact hv
  · rcases List.mem_append.mp hx with hx | hx
    · have := hb x hx; omega
    · have : x = (k, v) := by simpa using hx
      subst this; simp

theorem Fits.weaken {n n' : Nat} {m : FieldMap} (h : Fits n m) (hn : n ≤ n') : Fits n' m :=
  ⟨h.1, h.2.1, fun x hx => Nat.lt_of_lt_of_le (h.2.2 x hx) hn⟩

/-- A word-backed field, present or not (R125). -/
theorem Fits.word {n : Nat} {m : FieldMap} (h : Fits n m) (k : FieldId) (w : Option Word) (f : Word → FieldValue)
    (hn : n ≤ fieldIndex k) (hv : ∀ v, valueFits k (f v) = true) :
    Fits (fieldIndex k + 1) (m ++ wordField k w f) := by
  cases w with
  | none => simpa [wordField] using h.weaken (by omega)
  | some v => exact h.snoc k (f v) hn (hv v)

/-- Raw words, present or not (R135, R145). -/
theorem Fits.raw {n : Nat} {m : FieldMap} (h : Fits n m) (k : FieldId) (ws : List Word) (hn : n ≤ fieldIndex k)
    (hv : ws ≠ [] → valueFits k (.raw ws) = true) : Fits (fieldIndex k + 1) (m ++ rawField k ws) := by
  cases ws with
  | nil => simpa [rawField] using h.weaken (by omega)
  | cons w ws => exact h.snoc k _ hn (hv (by simp))

/-- A key of two maps one after the other is looked up in the first, then in the second. -/
theorem fieldLookup_append (a b : FieldMap) (k : FieldId) :
    fieldLookup (a ++ b) k = (fieldLookup a k).or (fieldLookup b k) := by
  induction a with
  | nil => rfl
  | cons e a ih => simp only [List.cons_append, fieldLookup]; split <;> simp [ih]

/-- A word-backed field is there under its own key when its word is (R125). -/
theorem fieldLookup_wordField (k k' : FieldId) (w : Option Word) (f : Word → FieldValue) :
    fieldLookup (wordField k w f) k' = if k = k' then w.map f else none := by
  cases w <;> simp [wordField, fieldLookup]

theorem fieldLookup_rawField (k k' : FieldId) (ws : List Word) :
    fieldLookup (rawField k ws) k' = if k = k' ∧ ws ≠ [] then some (.raw ws) else none := by
  cases ws <;> simp [rawField, fieldLookup]

theorem key_of_mem_wordField {k : FieldId} {w : Option Word} {f : Word → FieldValue} {e : FieldId × FieldValue}
    (h : e ∈ wordField k w f) : e.1 = k := by
  cases w with
  | none => cases h
  | some w => rw [List.mem_singleton.mp h]

theorem key_of_mem_rawField {k : FieldId} {ws : List Word} {e : FieldId × FieldValue} (h : e ∈ rawField k ws) :
    e.1 = k := by
  cases ws with
  | nil => cases h
  | cons w ws => rw [List.mem_singleton.mp h]

theorem sext16_range (v : Word) : -32768 ≤ sext16 v ∧ sext16 v ≤ 32767 := by
  have := v.isLt
  simp only [sext16]
  split <;> omega

theorem biased_range (b : Byte) : -20 ≤ biased b ∧ biased b ≤ 235 := by
  have := b.isLt
  simp only [biased, Params.tempBias]
  omega

theorem unsignedCenti_fits (v : Word) : unsignedCenti ⟨(v.toNat : Int), 2⟩ = true := by
  have := v.isLt
  simp only [unsignedCenti, BEq.rfl, Bool.true_and, Bool.and_eq_true, decide_eq_true_eq]
  omega

theorem decimal_length (n : Nat) : 1 ≤ (decimal n).length ∧ (decimal n).length ≤ 2 := by
  simp only [decimal]; split <;> simp

/-- A firmware version has 7 to 11 characters (R132). -/
theorem renderVersion_length (w : Word) : 7 ≤ (renderVersion w).length ∧ (renderVersion w).length ≤ 11 := by
  have h0 := decimal_length (nibble w 0); have h1 := decimal_length (nibble w 1)
  have h2 := decimal_length (nibble w 2); have h3 := decimal_length (nibble w 3)
  simp only [renderVersion, List.length_append, List.length_cons]
  omega

/-- The cells of `ws`, the first of them number `n`, are numbers in order, at most 10, each a voltage (R150, R151). -/
theorem cellMap_fits (ws : List Word) (n lo : Nat) (hlo : lo < n) (hn : n + ws.length ≤ 11) :
    cellMapFits lo (cellMap n ws) = true := by
  induction ws generalizing n lo with
  | nil => rfl
  | cons w ws ih =>
    simp only [List.length_cons] at hn
    simp only [cellMap]
    split
    · exact ih (n + 1) lo (by omega) (by omega)
    · next hw =>
      have hlt : w.toNat < 65535 := by
        have := w.isLt
        have : w.toNat ≠ 65535 := fun he => hw (BitVec.eq_of_toNat_eq (by simpa using he))
        omega
      have hc : Params.cellAbsent.toNat = 65535 := rfl
      have := ih (n + 1) n (by omega) (by omega)
      simp only [cellMapFits, milli, this, hc, Params.nCells, Bool.and_true, BEq.rfl, Bool.and_eq_true,
        decide_eq_true_eq]
      exact ⟨⟨⟨hlo, by omega⟩, decide_eq_true (by omega)⟩, by exact_mod_cast hlt⟩

theorem infoFields_fits (p : List Byte) : Fits 8 (infoFields p) := by
  have h0 : Fits 1 [(FieldId.serial, FieldValue.text ((p.take Params.serialBytes).map asciiOrRepl))] := by
    refine (Fits.nil 0).snoc .serial _ (Nat.le_refl _) ?_
    simp only [valueFits, List.length_map, List.length_take, decide_eq_true_eq]
    exact Nat.min_le_left ..
  refine ((((((h0.word .fwVersion _ _ (Nat.le_refl _) ?_).word .capacityMah _ _ (Nat.le_refl _) ?_).word
    .totalCapacityMah _ _ (Nat.le_refl _) ?_).word .designVoltageV _ _ (Nat.le_refl _) ?_).word
    .cycleCount _ _ (Nat.le_refl _) ?_).word .chargeCount _ _ (Nat.le_refl _) ?_).raw .rawTail _ (Nat.le_refl _) ?_
  · intro v
    have := renderVersion_length v
    simp [valueFits, this]
  · exact fun _ => rfl
  · exact fun _ => rfl
  · exact fun v => unsignedCenti_fits v
  · exact fun _ => rfl
  · exact fun _ => rfl
  · intro hne
    have := List.length_pos_iff.mpr hne
    simp only [valueFits, Bool.and_eq_true, decide_eq_true_eq]
    exact ⟨this, by simp⟩

theorem statusFields_fits (p : List Byte) : Fits 22 (statusFields p) := by
  refine (((((((((((((((Fits.nil 8).word .functionFlags _ _ (Nat.le_refl _) (fun _ => rfl)).word
    .remainingCapacityMah _ _ (Nat.le_refl _) (fun _ => rfl)).word .remainingPercent _ _ (Nat.le_refl _)
    (fun _ => rfl)).word .currentA _ _ (Nat.le_refl _) ?_).word .voltageV _ _ (Nat.le_refl _) ?_).word
    .temp1C _ _ (Nat.le_refl _) ?_).word .temp2C _ _ (Nat.le_refl _) ?_).word .balanceStatus _ _ (Nat.le_refl _)
    (fun _ => rfl)).word .dischargeOvercurrentState _ _ (Nat.le_refl _) (fun _ => rfl)).word
    .chargeOvercurrentState _ _ (Nat.le_refl _) (fun _ => rfl)).word .coulombCapacity _ _ (Nat.le_refl _)
    (fun _ => rfl)).word .voltageCapacity _ _ (Nat.le_refl _) (fun _ => rfl)).word .healthPercent _ _ (Nat.le_refl _)
    (fun _ => rfl)).raw .reserved _ (Nat.le_refl _) ?_)
  · intro v
    have := sext16_range v
    simp [valueFits, centi, this]
  · exact fun v => unsignedCenti_fits v
  · intro v
    have := biased_range (loByte v)
    simp [valueFits, this]
  · intro v
    have := biased_range (hiByte v)
    simp [valueFits, this]
  · intro hne
    have := List.length_pos_iff.mpr hne
    simp only [valueFits, Bool.and_eq_true, decide_eq_true_eq]
    exact ⟨this, by simp⟩

theorem cellsFields_fits (p : List Byte) : Fits 23 (cellsFields p) := by
  refine (Fits.nil 22).snoc .cells _ (Nat.le_refl _) ?_
  refine cellMap_fits _ 1 0 (by omega) ?_
  simp only [List.length_take, Params.nCells]; omega

/-- The fields of every arm are in canonical form and fit (R124). -/
theorem armFields_wf (arm : Arm) (p : List Byte) : fieldMapWf (armFields arm p) = true := by
  have key : ∀ {n m}, Fits n m → fieldMapWf m = true := fun h => by simp [fieldMapWf, h.1, h.2.1]
  cases arm
  · exact key (infoFields_fits p)
  · rfl
  · exact key (statusFields_fits p)
  · exact key (cellsFields_fits p)
  · rfl
  · rfl

/-- DECODE of a well-formed frame gives a well-formed record (R26, R30, R120). -/
theorem decodeRecord_wf (fr : Frame) (h : frameWf fr = true) : recordWf (decodeRecord fr) = true := by
  by_cases g : gatePasses fr = true
  · have g' : (fr.checksumReceived == fr.checksumComputed) = true := g
    have ha := armFields_wf (armOfKey (dispatchKey fr.cmd fr.index)) fr.payload
    simp [decodeRecord, g, recordWf, h, g', ha]
  · have g' : (fr.checksumReceived == fr.checksumComputed) = false := by simpa [gatePasses] using g
    simp [decodeRecord, g, recordWf, h, g', fieldMapWf, fieldMapCanonical, fieldMapFits]

@[simp] theorem decodeRecord_frame (fr : Frame) : (decodeRecord fr).frame = fr := by
  simp only [decodeRecord]; split <;> rfl

@[simp] theorem decodeRecord_checksumOk (fr : Frame) : (decodeRecord fr).checksumOk = gatePasses fr := by
  simp only [decodeRecord]; split <;> simp_all

end Sys2Proof.Machine
end

