-- ==== Sys2Proof/Laws/Decode.lean ====
section
/-!
SUPPORT. The parts of an invocation's encoding read back: sequences, words, integers, field values, field maps, frames.
-/
namespace Sys2Proof

open Sys2Proof.Machine

@[simp] theorem readFlag_zero : readFlag 0#8 = .ok false := rfl
@[simp] theorem readFlag_one : readFlag 1#8 = .ok true := rfl
@[simp] theorem readFlag_flagByte (b : Bool) : readFlag (flagByte b) = .ok b := by cases b <;> rfl

@[simp] theorem except_ok_bind {ε α β : Type} (a : α) (f : α → Except ε β) :
    ((Except.ok a : Except ε α) >>= f) = f a := rfl
@[simp] theorem except_error_bind {ε α β : Type} (e : ε) (f : α → Except ε β) :
    ((Except.error e : Except ε α) >>= f) = .error e := rfl

/-- A sequence reads back, whatever follows it. -/
@[simp] theorem decodeSeq_encodeSeq (bs rest : List Byte) : decodeSeq (encodeSeq bs ++ rest) = .ok (bs, rest) := by
  induction bs with
  | nil => cases rest <;> simp [encodeSeq, decodeSeq]
  | cons b bs ih => simp [encodeSeq, decodeSeq, ih]

@[simp] theorem decodeWords_encodeWords (ws : List Word) (rest : List Byte) :
    decodeWords (encodeWords ws ++ rest) = .ok (ws, rest) := by
  induction ws with
  | nil =>
    match rest with
    | [] => simp [encodeWords, decodeWords]
    | [_] => simp [encodeWords, decodeWords]
    | _ :: _ :: _ => simp [encodeWords, decodeWords]
  | cons w ws ih => simp [encodeWords, decodeWords, ih]

/-- An integer of magnitude up to 65535 reads back. -/
theorem decodeInt_encodeInt (m : Int) (rest : List Byte) (h : m.natAbs ≤ 65535) :
    decodeInt (encodeInt m ++ rest) = .ok (m, rest) := by
  have e : (BitVec.ofNat 16 m.natAbs).toNat = m.natAbs := by rw [BitVec.toNat_ofNat]; omega
  simp only [encodeInt, encodeWord, List.cons_append, List.nil_append, decodeInt, readFlag_flagByte, except_ok_bind,
    le16_lo_hi, e]
  congr 2
  by_cases hm : m < 0
  · simp only [hm, decide_true, if_true]; omega
  · simp only [hm, decide_false, Bool.false_eq_true, if_false]; omega

@[simp] theorem decodeChar_encodeChar (c : TextChar) : decodeChar (encodeChar c) = c := by
  cases c with
  | ascii c =>
    have h : (c.setWidth 8).toNat = c.toNat := by
      have := c.isLt
      rw [BitVec.toNat_setWidth]; omega
    have := c.isLt
    simp only [encodeChar, decodeChar, h]
    rw [if_pos (by omega)]
    congr 1
    apply BitVec.eq_of_toNat_eq
    rw [BitVec.toNat_setWidth, h]; omega
  | replacement => rfl

/-- A fitting cell map reads back. -/
theorem decodeCells_encodeCells (cm : List (Nat × Fixed)) (lo : Nat) (rest : List Byte) (h : cellMapFits lo cm = true) :
    decodeCells (encodeCells cm ++ rest) = .ok (cm, rest) := by
  induction cm generalizing lo with
  | nil =>
    match rest with
    | [] => simp [encodeCells, decodeCells]
    | [_] => simp [encodeCells, decodeCells]
    | [_, _] => simp [encodeCells, decodeCells]
    | _ :: _ :: _ :: _ => simp [encodeCells, decodeCells]
  | cons e cm ih =>
    obtain ⟨n, ⟨m, k⟩⟩ := e
    simp only [cellMapFits, Bool.and_eq_true, decide_eq_true_eq, beq_iff_eq, Params.nCells] at h
    obtain ⟨⟨⟨⟨⟨h1, h2⟩, h3⟩, h4⟩, h5⟩, h6⟩ := h
    have hm : m < 65535 := by simpa using h5
    have e1 : (BitVec.ofNat 8 n).toNat = n := by rw [BitVec.toNat_ofNat]; omega
    have e2 : (BitVec.ofNat 16 m.natAbs).toNat = m.natAbs := by rw [BitVec.toNat_ofNat]; omega
    have e3 : ((m.natAbs : Nat) : Int) = m := by omega
    simp [encodeCells, decodeCells, ih n h6, milli, e1, e2, e3, h3]

/-- A value that fits its identifier reads back. -/
theorem decodeValue_encodeValue (k : FieldId) (v : FieldValue) (rest : List Byte) (h : valueFits k v = true) :
    decodeValue (encodeValue v ++ rest) = .ok (v, rest) := by
  cases v with
  | u v => simp [encodeValue, encodeWord, decodeValue]
  | s v =>
    have hv : v.natAbs ≤ 65535 := by
      cases k <;> simp [valueFits] at h <;> omega
    simp [encodeValue, decodeValue, decodeInt_encodeInt v rest hv]
  | fx x =>
    obtain ⟨m, s⟩ := x
    have hx : m.natAbs ≤ 65535 ∧ s = 2 := by
      cases k <;> simp [valueFits, unsignedCenti] at h <;> omega
    obtain ⟨hm, rfl⟩ := hx
    simp [encodeValue, decodeValue, decodeInt_encodeInt m rest hm]
  | text cs => simp [encodeValue, decodeValue, Function.comp_def]
  | cells cm =>
    have hc : cellMapFits 0 cm = true := by
      cases k <;> simp [valueFits] at h
      exact h
    simp [encodeValue, decodeValue, decodeCells_encodeCells cm 0 rest hc]
  | raw ws => simp [encodeValue, decodeValue]

theorem fieldIds_getElem? (k : FieldId) : fieldIds[fieldIndex k]? = some k := by cases k <;> rfl

theorem encodeValue_ne_nil (v : FieldValue) : 1 ≤ (encodeValue v).length := by cases v <;> simp [encodeValue]

/-- A map whose values fit reads back, with any fuel above its length. -/
theorem decodeFields_encodeFields (m : FieldMap) (rest : List Byte) (fuel : Nat) (h : fieldMapFits m = true)
    (hf : m.length < fuel) : decodeFields fuel (encodeFields m ++ rest) = .ok (m, rest) := by
  induction m generalizing fuel with
  | nil =>
    cases fuel with
    | zero => simp at hf
    | succ fuel => simp [encodeFields, decodeFields]
  | cons e m ih =>
    obtain ⟨k, v⟩ := e
    cases fuel with
    | zero => simp at hf
    | succ fuel =>
      simp only [fieldMapFits, List.all_cons, Bool.and_eq_true] at h
      have hk : (BitVec.ofNat 8 (fieldIndex k)).toNat = fieldIndex k := by
        have : fieldIndex k < 256 := by cases k <;> decide
        rw [BitVec.toNat_ofNat]; omega
      have := ih fuel (by simpa [fieldMapFits] using h.2) (by simpa using hf)
      simp only [encodeFields, List.cons_append, List.append_assoc, decodeFields, readFlag_one, except_ok_bind, if_true,
        hk, fieldIds_getElem?, decodeValue_encodeValue k v _ h.1, this]

/-- A map's encoding has more bytes than the map has entries: fuel enough. -/
theorem length_encodeFields (m : FieldMap) : m.length < (encodeFields m).length := by
  induction m with
  | nil => simp [encodeFields]
  | cons e m ih =>
    obtain ⟨k, v⟩ := e
    simp only [encodeFields, List.length_cons, List.length_append]
    omega

/-- A well-formed frame reads back. -/
theorem decodeFrame_encodeFrame (fr : Frame) (rest : List Byte) (h : frameWf fr = true) :
    decodeFrame (encodeFrame fr ++ rest) = .ok (fr, rest) := by
  simp [encodeFrame, decodeFrame, sealFrame_of_wf fr h]

/-- A checksum input of four bytes or more reads back. -/
theorem decodeCkInput_encodeCkInput (data rest : List Byte) (h : 4 ≤ data.length) :
    decodeCkInput (encodeCkInput data ++ rest) = .ok (data, rest) := by
  match data, h with
  | a :: b :: c :: d :: more, _ => simp [encodeCkInput, decodeCkInput]

end Sys2Proof
end

