-- ==== Sys2Proof/Laws/PerInstr.lean ====
section
/-!
SUPPORT. One statement about every instruction as syntax: its encoding starts with the byte that selects the format its
row has in spec/opcode_table.json, and is longer than that byte.
-/
namespace Sys2Proof.Laws.Format

open Sys2Proof

/-- The format column of the instruction's row. -/
def formatOf : Instr → Byte
  | .decBadck _ _ _ _ _ _ => fmtGate
  | .decInfo _ _ _ | .decEmpty20 _ _ _ | .decStatus _ _ _ | .decCells _ _ _ | .decEmpty50 _ _ _
  | .decUnknown _ _ _ _ _ => fmtDispatch
  | .frame _ _ _ _ _ _ => fmtWire
  | .reqframe _ _ _ _ _ => fmtReq
  | .drain | .pump _ | .poll => fmtPseudo
  | _ => fmtOp

/-- The encoding starts with the format's byte and goes on. -/
def Statement (i : Instr) : Prop := ∃ b rest, encode i = formatOf i :: b :: rest

theorem feed (d : List Byte) : Statement (.feed d) := ⟨_, _, rfl⟩
theorem extract : Statement .extract := ⟨_, _, rfl⟩
theorem ckCompute (d : List Byte) : Statement (.ckCompute d) := ⟨_, _, rfl⟩
theorem ckVerify (d : List Byte) : Statement (.ckVerify d) := ⟨_, _, rfl⟩
theorem decode (fr : Frame) : Statement (.decode fr) := ⟨_, _, rfl⟩
theorem encInfo : Statement .encInfo := ⟨_, _, rfl⟩
theorem encStatus : Statement .encStatus := ⟨_, _, rfl⟩
theorem encCells : Statement .encCells := ⟨_, _, rfl⟩
theorem encGen (a b c d : Byte) (p : List Byte) : Statement (.encGen a b c d p) := ⟨_, _, rfl⟩
theorem snapApply (r : DecodedRecord) : Statement (.snapApply r) := ⟨_, _, rfl⟩
theorem snapRead : Statement .snapRead := ⟨_, _, rfl⟩
theorem reset : Statement .reset := ⟨_, _, rfl⟩
theorem reservedC : Statement .reservedC := ⟨_, _, rfl⟩
theorem reservedD : Statement .reservedD := ⟨_, _, rfl⟩
theorem reservedE : Statement .reservedE := ⟨_, _, rfl⟩
theorem reservedF : Statement .reservedF := ⟨_, _, rfl⟩
theorem decBadck (a b c d : Byte) (w : Word) (p : List Byte) : Statement (.decBadck a b c d w p) := ⟨_, _, rfl⟩
theorem decInfo (a b : Byte) (p : List Byte) : Statement (.decInfo a b p) := ⟨_, _, rfl⟩
theorem decEmpty20 (a b : Byte) (p : List Byte) : Statement (.decEmpty20 a b p) := ⟨_, _, rfl⟩
theorem decStatus (a b : Byte) (p : List Byte) : Statement (.decStatus a b p) := ⟨_, _, rfl⟩
theorem decCells (a b : Byte) (p : List Byte) : Statement (.decCells a b p) := ⟨_, _, rfl⟩
theorem decEmpty50 (a b : Byte) (p : List Byte) : Statement (.decEmpty50 a b p) := ⟨_, _, rfl⟩
theorem decUnknown (a b c d : Byte) (p : List Byte) : Statement (.decUnknown a b c d p) := ⟨_, _, rfl⟩
theorem frame (a b c d : Byte) (p : List Byte) (w : Word) : Statement (.frame a b c d p w) := ⟨_, _, rfl⟩
theorem reqframe (a b c d e : Byte) : Statement (.reqframe a b c d e) := ⟨_, _, rfl⟩
theorem drain : Statement .drain := ⟨_, _, rfl⟩
theorem pump (d : List Byte) : Statement (.pump d) := ⟨_, _, rfl⟩
theorem poll : Statement .poll := ⟨_, _, rfl⟩

end Sys2Proof.Laws.Format
end

