-- ==== Sys2Proof/Laws/Synchronizer.lean ====
section
/-!
SUPPORT. What the synchronizer's shared operations can do: the marker search, the cut, one EXTRACT, a drain, an append.
-/
namespace Sys2Proof.Machine

open Sys2Proof.Safety

theorem markerAt_zero (a b : Byte) (rest : List Byte) :
    markerAt (a :: b :: rest) 0 ↔ a = Params.marker0 ∧ b = Params.marker1 := by simp [markerAt]

theorem markerAt_succ (a : Byte) (rest : List Byte) (i : Nat) : markerAt (a :: rest) (i + 1) ↔ markerAt rest i := by
  simp [markerAt]

/-- A marker takes two bytes of the buffer. -/
theorem markerAt_lt {b : List Byte} {i : Nat} (h : markerAt b i) : i + 1 < b.length :=
  (List.getElem?_eq_some_iff.mp h.2).1

/-- The search finds no marker exactly when none stands anywhere (R103). -/
theorem findMarker_none_iff (b : List Byte) : findMarker b = none ↔ ∀ i, ¬ markerAt b i := by
  induction b using findMarker.induct with
  | case1 a b rest h =>
    simp only [findMarker, if_pos h, reduceCtorEq, false_iff, not_forall, not_not]
    exact ⟨0, (markerAt_zero a b rest).mpr h⟩
  | case2 a b rest h ih =>
    simp only [findMarker, if_neg h, Option.map_eq_none_iff, ih]
    constructor
    · intro hn i
      cases i with
      | zero => rw [markerAt_zero]; exact h
      | succ i => rw [markerAt_succ]; exact hn i
    · intro hn i
      have := hn (i + 1)
      rwa [markerAt_succ] at this
  | case3 b h =>
    have hl : b.length ≤ 1 := by
      match b, h with
      | [], _ => simp
      | [_], _ => simp
      | a :: c :: r, h => exact absurd rfl (h a c r)
    have e : findMarker b = none := by
      match b, h with
      | [], _ => rfl
      | [_], _ => simp [findMarker]
      | a :: c :: r, h => exact absurd rfl (h a c r)
    simp only [e, true_iff]
    intro i hm
    have := markerAt_lt hm
    omega

/-- The search finds the first marker (R103, D3). -/
theorem findMarker_some_iff (b : List Byte) (p : Nat) :
    findMarker b = some p ↔ markerAt b p ∧ ∀ j < p, ¬ markerAt b j := by
  induction b using findMarker.induct generalizing p with
  | case1 a b rest h =>
    simp only [findMarker, if_pos h, Option.some.injEq]
    constructor
    · rintro rfl; exact ⟨(markerAt_zero a b rest).mpr h, by simp⟩
    · rintro ⟨-, hn⟩
      cases p with
      | zero => rfl
      | succ p => exact absurd ((markerAt_zero a b rest).mpr h) (hn 0 (by omega))
  | case2 a b rest h ih =>
    simp only [findMarker, if_neg h, Option.map_eq_some_iff]
    constructor
    · rintro ⟨q, hq, rfl⟩
      obtain ⟨hm, hn⟩ := (ih q).mp hq
      refine ⟨(markerAt_succ ..).mpr hm, fun j hj => ?_⟩
      cases j with
      | zero => rw [markerAt_zero]; exact h
      | succ j => rw [markerAt_succ]; exact hn j (by omega)
    · rintro ⟨hm, hn⟩
      cases p with
      | zero => exact absurd ((markerAt_zero a b rest).mp hm) h
      | succ p =>
        refine ⟨p, (ih p).mpr ⟨(markerAt_succ ..).mp hm, fun j hj => ?_⟩, rfl⟩
        have := hn (j + 1) (by omega)
        rwa [markerAt_succ] at this
  | case3 b h =>
    have hl : b.length ≤ 1 := by
      match b, h with
      | [], _ => simp
      | [_], _ => simp
      | a :: c :: r, h => exact absurd rfl (h a c r)
    have e : findMarker b = none := (findMarker_none_iff b).mpr fun i hm => by
      have := markerAt_lt hm
      omega
    simp only [e, reduceCtorEq, false_iff, not_and]
    intro hm
    have := markerAt_lt hm
    omega

/-- What stands behind the found marker starts with it (R104). -/
theorem drop_of_findMarker {b : List Byte} {p : Nat} (h : findMarker b = some p) :
    ∃ tail, b.drop p = Params.marker0 :: Params.marker1 :: tail := by
  obtain ⟨⟨h0, h1⟩, -⟩ := (findMarker_some_iff b p).mp h
  obtain ⟨l0, e0⟩ := List.getElem?_eq_some_iff.mp h0
  obtain ⟨l1, e1⟩ := List.getElem?_eq_some_iff.mp h1
  refine ⟨b.drop (p + 1 + 1), ?_⟩
  rw [List.drop_eq_getElem_cons l0, List.drop_eq_getElem_cons l1, e0, e1]

/-- A buffer that starts with the marker: the search stops there. -/
@[simp] theorem findMarker_front (tail : List Byte) :
    findMarker (Params.marker0 :: Params.marker1 :: tail) = some 0 := by simp [findMarker]

/-- Steps 4 to 7 on a marker-led buffer (R105 to R108): the three ways it can end. -/
theorem cutFrame_cases (tail : List Byte) :
    (tail = [] ∧ cutFrame (Params.marker0 :: Params.marker1 :: tail) = (none, [Params.marker0, Params.marker1])) ∨
    (∃ len more, tail = len :: more ∧ more.length < len.toNat + 6 ∧
      cutFrame (Params.marker0 :: Params.marker1 :: tail) = (none, Params.marker0 :: Params.marker1 :: tail)) ∨
    (∃ fr rest, frameWf fr = true ∧ Params.marker0 :: Params.marker1 :: tail = frameBytes fr ++ rest ∧
      cutFrame (Params.marker0 :: Params.marker1 :: tail) = (some fr, rest)) := by
  match tail with
  | [] => exact .inl ⟨rfl, rfl⟩
  | len :: more =>
    right
    have e : cutFrame (Params.marker0 :: Params.marker1 :: len :: more) =
        if (Params.marker0 :: Params.marker1 :: len :: more).length < totalSize len then
          (none, Params.marker0 :: Params.marker1 :: len :: more)
        else (some (parseFrame ((Params.marker0 :: Params.marker1 :: len :: more).take (totalSize len))),
          (Params.marker0 :: Params.marker1 :: len :: more).drop (totalSize len)) := rfl
    rw [e]
    by_cases h : (Params.marker0 :: Params.marker1 :: len :: more).length < totalSize len
    · left
      refine ⟨len, more, rfl, ?_, by rw [if_pos h]⟩
      simp only [List.length_cons, totalSize, Params.hdrSize, Params.trlSize] at h; omega
    · right
      rw [if_neg h]
      simp only [List.length_cons, totalSize, Params.hdrSize, Params.trlSize] at h
      match more, h with
      | [], h => simp at h; omega
      | [_], h => simp at h; omega
      | [_, _], h => simp at h; omega
      | [_, _, _], h => simp at h; omega
      | src :: tgt :: cmd :: index :: more, h =>
        simp only [List.length_cons] at h
        obtain ⟨p, tl, rfl, hp⟩ : ∃ p tl, more = p ++ tl ∧ p.length = len.toNat :=
          ⟨more.take len.toNat, more.drop len.toNat, (List.take_append_drop ..).symm, by
            rw [List.length_take]; omega⟩
        match tl, h with
        | [], h => simp at h; omega
        | [_], h => simp at h; omega
        | lo :: hi :: rest, h =>
          have hT : totalSize len = p.length + 9 := by
            simp only [totalSize, Params.hdrSize, Params.trlSize]; omega
          have htake : (Params.marker0 :: Params.marker1 :: len :: src :: tgt :: cmd :: index ::
              (p ++ lo :: hi :: rest)).take (totalSize len) =
              Params.marker0 :: Params.marker1 :: ((len :: src :: tgt :: cmd :: index :: p) ++ [lo, hi]) := by
            rw [hT]
            simp [List.take_append]
          have hdrop : (Params.marker0 :: Params.marker1 :: len :: src :: tgt :: cmd :: index ::
              (p ++ lo :: hi :: rest)).drop (totalSize len) = rest := by
            rw [hT]
            simp [List.drop_append]
          have hw : wordAt (Params.marker0 :: Params.marker1 :: ((len :: src :: tgt :: cmd :: index :: p) ++ [lo, hi]))
              (7 + len.toNat) = le16 lo hi := by
            have := wordAt_trailer (Params.marker0 :: Params.marker1 :: len :: src :: tgt :: cmd :: index :: p) lo hi
            simp only [List.length_cons, hp] at this
            rw [show 7 + len.toNat = len.toNat + 1 + 1 + 1 + 1 + 1 + 1 + 1 by omega]
            exact this
          have hpay : slice (Params.marker0 :: Params.marker1 :: ((len :: src :: tgt :: cmd :: index :: p) ++ [lo, hi]))
              7 (7 + len.toNat) = p := by
            rw [slice, show 7 + len.toNat = p.length + 7 by omega]
            simp
          rw [htake, hdrop]
          refine ⟨⟨len, src, tgt, cmd, index, p, le16 lo hi, cksum16 (len :: src :: tgt :: cmd :: index :: p)⟩, rest,
            ?_, ?_, ?_⟩
          · simp [frameWf, frameBody, hp]
          · simp [frameBytes, frameBody]
          · have hc : ckValue (Params.marker0 :: Params.marker1 ::
                ((len :: src :: tgt :: cmd :: index :: p) ++ [lo, hi])) =
                cksum16 (len :: src :: tgt :: cmd :: index :: p) := by rw [ckValue, covered_between]
            have hb : byteAt (Params.marker0 :: Params.marker1 ::
                ((len :: src :: tgt :: cmd :: index :: p) ++ [lo, hi])) 2 = len := rfl
            simp only [parseFrame, hb, hpay, hw, hc, Params.hdrSize]
            rfl

/-- Everything one EXTRACT can do (R101): keep a short buffer, empty a noisy one, wait on a marker-led one, or return the
frame behind the first marker. -/
theorem extractBuf_cases (b : List Byte) :
    (b.length < 9 ∧ extractBuf b = (none, b)) ∨
    (9 ≤ b.length ∧ (∀ i, ¬ markerAt b i) ∧ extractBuf b = (none, [])) ∨
    (9 ≤ b.length ∧ ∃ p, findMarker b = some p ∧ b.drop p = [Params.marker0, Params.marker1] ∧
      extractBuf b = (none, [Params.marker0, Params.marker1])) ∨
    (9 ≤ b.length ∧ ∃ p len more, findMarker b = some p ∧
      b.drop p = Params.marker0 :: Params.marker1 :: len :: more ∧ more.length < len.toNat + 6 ∧
      extractBuf b = (none, b.drop p)) ∨
    (9 ≤ b.length ∧ ∃ p fr rest, findMarker b = some p ∧ frameWf fr = true ∧ b.drop p = frameBytes fr ++ rest ∧
      extractBuf b = (some fr, rest)) := by
  by_cases h : b.length < 9
  · exact .inl ⟨h, by simp [extractBuf, h]⟩
  · right
    have h9 : 9 ≤ b.length := by omega
    cases hm : findMarker b with
    | none => exact .inl ⟨h9, (findMarker_none_iff b).mp hm, by simp [extractBuf, h, hm]⟩
    | some p =>
      right
      have e : extractBuf b = cutFrame (b.drop p) := by simp [extractBuf, h, hm]
      obtain ⟨tail, ht⟩ := drop_of_findMarker hm
      rcases cutFrame_cases tail with ⟨rfl, hc⟩ | ⟨len, more, rfl, hl, hc⟩ | ⟨fr, rest, hf, hb, hc⟩
      · exact .inl ⟨h9, p, rfl, ht, by rw [e, ht, hc]⟩
      · exact .inr (.inl ⟨h9, p, len, more, rfl, ht, hl, by rw [e, ht, hc]⟩)
      · exact .inr (.inr ⟨h9, p, fr, rest, rfl, hf, by rw [ht, hb], by rw [e, ht, hc]⟩)

/-- A frame that EXTRACT returns is well formed (R24), and with the lead-in and what is left it is the buffer (R25). -/
theorem extractBuf_some {b rest : List Byte} {fr : Frame} (h : extractBuf b = (some fr, rest)) :
    frameWf fr = true ∧ ∃ p, findMarker b = some p ∧ b = b.take p ++ frameBytes fr ++ rest := by
  rcases extractBuf_cases b with ⟨-, e⟩ | ⟨-, -, e⟩ | ⟨-, p, -, -, e⟩ | ⟨-, p, len, more, -, -, -, e⟩ |
    ⟨-, p, fr', rest', hp, hf, hd, e⟩
  · rw [e] at h; cases h
  · rw [e] at h; cases h
  · rw [e] at h; cases h
  · rw [e] at h; cases h
  · rw [e] at h; cases h
    exact ⟨hf, p, hp, by rw [List.append_assoc, ← hd, List.take_append_drop]⟩

/-- A returned frame takes at least nine bytes (R82: a drain ends). -/
theorem extractBuf_some_length {b rest : List Byte} {fr : Frame} (h : extractBuf b = (some fr, rest)) :
    rest.length + 9 ≤ b.length := by
  obtain ⟨-, p, -, e⟩ := extractBuf_some h
  have := congrArg List.length e
  simp only [List.length_append, frameBytes_length] at this
  omega

/-- What EXTRACT leaves is a suffix of what it found (R43). -/
theorem extractBuf_suffix (b : List Byte) : ∃ dropped, b = dropped ++ (extractBuf b).2 := by
  rcases extractBuf_cases b with ⟨-, e⟩ | ⟨-, -, e⟩ | ⟨-, p, -, hd, e⟩ | ⟨-, p, len, more, -, -, -, e⟩ |
    ⟨-, p, fr, rest, -, -, hd, e⟩
  · exact ⟨[], by rw [e]; rfl⟩
  · exact ⟨b, by rw [e]; simp⟩
  · exact ⟨b.take p, by rw [e, ← hd, List.take_append_drop]⟩
  · exact ⟨b.take p, by rw [e, List.take_append_drop]⟩
  · exact ⟨b.take p ++ frameBytes fr, by rw [e, List.append_assoc, ← hd, List.take_append_drop]⟩

/-- After an EXTRACT that returned `None` another one returns `None` and changes nothing (R49). -/
theorem extractBuf_wait {b b' : List Byte} (h : extractBuf b = (none, b')) : extractBuf b' = (none, b') := by
  rcases extractBuf_cases b with ⟨hl, e⟩ | ⟨-, -, e⟩ | ⟨-, p, -, -, e⟩ | ⟨-, p, len, more, -, hd, hl, e⟩ |
    ⟨-, p, fr, rest, -, -, -, e⟩
  · rw [e] at h; cases h; exact e
  · rw [e] at h; cases h; rfl
  · rw [e] at h; cases h; rfl
  · rw [e] at h; cases h
    rw [hd]
    by_cases h9 : (Params.marker0 :: Params.marker1 :: len :: more).length < 9
    · simp only [extractBuf, Params.minFrame, if_pos h9]
    · simp only [extractBuf, Params.minFrame, if_neg h9, findMarker_front, List.drop_zero]
      rcases cutFrame_cases (len :: more) with ⟨h0, -⟩ | ⟨_, _, -, -, hc⟩ | ⟨fr, rest, hf, hb, -⟩
      · cases h0
      · exact hc
      · exfalso
        have hlen := congrArg List.length hb
        have hlb : len = fr.length := by
          simp only [frameBytes, frameBody, List.cons_append, List.nil_append, List.cons.injEq] at hb
          exact hb.2.2.1
        have := ((frameWf_iff fr).mp hf).1
        subst hlb
        simp only [List.length_cons, List.length_append, frameBytes_length] at hlen
        omega
  · rw [e] at h; cases h

/-- More rounds than bytes change nothing. -/
theorem drainRounds_enough (n m : Nat) (b : List Byte) (hn : b.length < n) (hm : b.length < m) :
    drainRounds n b = drainRounds m b := by
  induction n generalizing m b with
  | zero => omega
  | succ n ih =>
    cases m with
    | zero => omega
    | succ m =>
      simp only [drainRounds]
      rcases h : extractBuf b with ⟨_ | f, b'⟩
      · rfl
      · have := extractBuf_some_length h
        simp only [ih m b' (by omega) (by omega)]

/-- A drain whose first EXTRACT returns `None` is that EXTRACT. -/
theorem drainBuf_none {b b' : List Byte} (h : extractBuf b = (none, b')) : drainBuf b = ([], b') := by
  simp [drainBuf, drainRounds, h]

/-- A drain whose first EXTRACT returns a frame goes on with what is left. -/
theorem drainBuf_some {b b' : List Byte} {f : Frame} (h : extractBuf b = (some f, b')) :
    drainBuf b = (f :: (drainBuf b').1, (drainBuf b').2) := by
  have := extractBuf_some_length h
  have e : drainBuf b = (f :: (drainRounds b.length b').1, (drainRounds b.length b').2) := by
    rw [drainBuf, drainRounds, h]
  rw [e, drainRounds_enough b.length (b'.length + 1) b' (by omega) (by omega), drainBuf]

/-- One drain after another: an induction over the frames a drain returns. -/
theorem drainBuf_induct {motive : List Byte → Prop}
    (none : ∀ b b', extractBuf b = (.none, b') → motive b)
    (some : ∀ b b' f, extractBuf b = (.some f, b') → motive b' → motive b) (b : List Byte) : motive b := by
  induction h : b.length using Nat.strongRecOn generalizing b with
  | ind n ih =>
    rcases hb : extractBuf b with ⟨_ | f, b'⟩
    · exact none b b' hb
    · have := extractBuf_some_length hb
      exact some b b' f hb (ih b'.length (by omega) b' rfl)

/-- Every frame of a drain is well formed (R24). -/
theorem drainBuf_wf (b : List Byte) : ∀ f ∈ (drainBuf b).1, frameWf f = true := by
  induction b using drainBuf_induct with
  | none b b' h => simp [drainBuf_none h]
  | some b b' f h ih =>
    rw [drainBuf_some h]
    intro g hg
    rcases List.mem_cons.mp hg with rfl | hg
    · exact (extractBuf_some h).1
    · exact ih g hg

/-- What a drain leaves is a suffix of what it found (R43). -/
theorem drainBuf_suffix (b : List Byte) : ∃ dropped, b = dropped ++ (drainBuf b).2 := by
  induction b using drainBuf_induct with
  | none b b' h =>
    obtain ⟨d, hd⟩ := extractBuf_suffix b
    exact ⟨d, by rw [drainBuf_none h, h] at *; exact hd⟩
  | some b b' f h ih =>
    obtain ⟨d, hd⟩ := extractBuf_suffix b
    obtain ⟨d', hd'⟩ := ih
    refine ⟨d ++ d', ?_⟩
    rw [drainBuf_some h, List.append_assoc, ← hd']
    rw [h] at hd; exact hd

/-- FEED without a capacity (R100). -/
@[simp] theorem feedBuf_unbounded (data : List Byte) (s : State) :
    feedBuf Config.bufCap data s = .next ((s.setBuf (s.buf ++ data)).returning []) := rfl

end Sys2Proof.Machine
end

