-- ==== Sys2Proof/Tests/Slice0.lean ====
section
/-!
SUPPORT. Tests. Ill-formed terms that the checks refuse; every constructor's word written out bit by bit from the spec's
encodings; one step of each instruction against 95_test_vectors.md (the vector is named at each); and for every statement
with hypotheses a state and operands that meet them.
-/
namespace Sys2Proof.Tests

open Sys2Proof Sys2Proof.Machine Sys2Proof.Safety

/-! ## Frames and states -/

/-- F20 of 95_test_vectors.md. -/
def f20 : List Byte := [0x5A, 0xA5, 0x00, 0x22, 0x3E, 0x04, 0x20, 0x7B, 0xFF]
/-- F20 as EXTRACT returns it (V-X1). -/
def frame20 : Frame := ⟨0, 0x22, 0x3E, 0x04, 0x20, [], 0xFF7B, 0xFF7B⟩
/-- BAD20 as EXTRACT returns it (V-X11). -/
def frameBad : Frame := ⟨0, 0x22, 0x3E, 0x04, 0x20, [], 0xFE7B, 0xFF7B⟩
/-- F50 as EXTRACT returns it (V-X10). -/
def frame50 : Frame := ⟨2, 0x22, 0x3E, 0x04, 0x50, [0xAB, 0xCD], 0xFDD1, 0xFDD1⟩
/-- The frame of V-D29: index 0x30 under another command. -/
def frameUnknown : Frame := ⟨4, 0x22, 0x3E, 0x05, 0x30, [1, 0, 2, 0], 0xFF63, 0xFF63⟩
/-- The frame of V-D7: five words and an odd byte. -/
def frameStatus : Frame := ⟨11, 0x22, 0x3E, 0x04, 0x30, [1, 0, 2, 0, 3, 0, 4, 0, 5, 0, 0x14], 0xFF3D, 0xFF3D⟩
/-- The fields of V-D7. -/
def fieldsStatus : FieldMap :=
  [(.functionFlags, .u 1), (.remainingCapacityMah, .u 2), (.remainingPercent, .u 3), (.currentA, .fx ⟨4, 2⟩),
    (.voltageV, .fx ⟨5, 2⟩)]
/-- The serial bytes of FIN. -/
def serialBytes : List Byte := [0x33, 0x4A, 0x47, 0x43, 0x41, 0x31, 0x32, 0x33, 0x34, 0x43, 0x30, 0x30, 0x30, 0x31]
/-- The frame of V-D11: eight words. -/
def frameInfo : Frame := ⟨16, 0x22, 0x3E, 0x04, 0x10, serialBytes ++ [0xBC, 0xFA], 0xFAAF, 0xFAAF⟩
/-- The frame of V-D24: two cells and an odd byte. -/
def frameCells : Frame := ⟨5, 0x22, 0x3E, 0x04, 0x40, [0x74, 0x0E, 0x75, 0x0E, 0x74], 0xFDDD, 0xFDDD⟩

/-- Reset, with these bytes buffered. -/
def buffered (b : List Byte) : State := State.reset.setBuf b
/-- Reset, with this Snapshot. -/
def holding (m : FieldMap) (e : Option CkPair) : State := State.reset.setSnap m e
/-- What stands on the result ports after one instruction. -/
def resultsOf (i : Instr) (s : State) : Option (List Result) :=
  match exec i s with
  | .next t => some t.results
  | _ => none
/-- `BUF` after one instruction. -/
def bufAfter (i : Instr) (s : State) : Option (List Byte) :=
  match exec i s with
  | .next t => some t.buf
  | _ => none
/-- The Snapshot after one instruction. -/
def snapAfter (i : Instr) (s : State) : Option (FieldMap × Option CkPair) :=
  match exec i s with
  | .next t => some (t.snapFields, t.snapErr)
  | _ => none

/-- A payload as long as the length byte can say, and one byte more. -/
def payload255 : List Byte := List.replicate 255 0
def payload256 : List Byte := List.replicate 256 0

theorem payload255_length : payload255.length = 255 := List.length_replicate ..
theorem payload256_length : payload256.length = 256 := List.length_replicate ..

/-! ## Ill-formed terms -/

theorem test_wf_short_checksum_input : (Instr.ckCompute [0x5A, 0xA5, 0x00]).wf = false := by decide
theorem test_wf_short_verify_input : (Instr.ckVerify []).wf = false := by decide
/-- V-D35: two bytes announced, one there. -/
theorem test_wf_frame_length : (Instr.decode ⟨2, 0x22, 0x3E, 0x04, 0x20, [0xAB], 0, 0xFECE⟩).wf = false := by decide
/-- A computed checksum that is not the Checksum Unit's (D6). -/
theorem test_wf_frame_checksum : (Instr.decode ⟨0, 0x22, 0x3E, 0x04, 0x20, [], 0xFE7B, 0xFE7B⟩).wf = false := by decide
/-- V-E8. -/
theorem test_wf_long_payload : (Instr.encGen 0 0 0 0 payload256).wf = false := by
  simp [Instr.wf, payloadFits, payload256_length]
theorem test_wf_long_frame : (Instr.frame 0 0 0 0 payload256 0).wf = false := by
  simp [Instr.wf, payloadFits, payload256_length]
theorem test_wf_long_arm_payload : (Instr.decInfo 0 0 payload256).wf = false := by
  simp [Instr.wf, payloadFits, payload256_length]
/-- A frame whose checksum is right is no bad frame. -/
theorem test_wf_badck_of_good_frame : (Instr.decBadck 0x22 0x3E 0x04 0x20 0xFF7B []).wf = false := by decide
/-- A known key is not unknown (R157). -/
theorem test_wf_unknown_of_known_key : (Instr.decUnknown 0x22 0x3E 0x04 0x30 []).wf = false := by decide
/-- A flag that does not compare the checksums (R121). -/
theorem test_wf_record_flag : recordWf ⟨true, frameBad, []⟩ = false := by decide
/-- A failed record with a field (R26). -/
theorem test_wf_record_failed_with_fields : recordWf ⟨false, frameBad, [(.healthPercent, .u 98)]⟩ = false := by decide
/-- R172's example: a good record with one field, under a key whose arm gives none, is admitted (assumption log 26). -/
theorem test_wf_record_hand_made : recordWf ⟨true, frame20, [(.voltageV, .fx ⟨3900, 2⟩)]⟩ = true := by decide
/-- A key twice, and keys out of order. -/
theorem test_wf_record_keys :
    fieldMapCanonical [(.healthPercent, .u 98), (.healthPercent, .u 97)] = false ∧
      fieldMapCanonical [(.healthPercent, .u 98), (.functionFlags, .u 1)] = false := by decide
/-- A value of another variant (R124). -/
theorem test_wf_record_variant : valueFits .healthPercent (.s 98) = false := by decide
/-- Temperatures from -20 to 235 (R73). -/
theorem test_wf_temperature_range :
    valueFits .temp1C (.s (-21)) = false ∧ valueFits .temp1C (.s 236) = false ∧ valueFits .temp2C (.s 235) = true := by
  decide
/-- The absent mark is no cell voltage, and there is no eleventh cell (R150, R151). -/
theorem test_wf_cell_values :
    valueFits .cells (.cells [(1, ⟨65535, 3⟩)]) = false ∧ valueFits .cells (.cells [(11, ⟨1000, 3⟩)]) = false ∧
      valueFits .cells (.cells [(10, ⟨65534, 3⟩)]) = true := by decide

/-! ## Words written out from the spec's encodings -/

/-- R79, op 0x0; the operand is the one byte 0x5A. -/
theorem test_decode_feed : decode [0, 0b0000, 1, 0b01011010, 0] = .ok (.feed [0x5A], []) := by decide
/-- R79, op 0x1. -/
theorem test_decode_extract : decode [0, 0b0001] = .ok (.extract, []) := by decide
/-- R79, op 0x2, with V-C12's operand. -/
theorem test_decode_ckCompute : decode [0, 0b0010, 0x00, 0x00, 0xFF, 0xFF, 0] = .ok (.ckCompute [0, 0, 0xFF, 0xFF], []) := by
  decide
/-- R79, op 0x3. -/
theorem test_decode_ckVerify : decode [0, 0b0011, 0x5A, 0xA5, 0xFF, 0xFF, 0] = .ok (.ckVerify [0x5A, 0xA5, 0xFF, 0xFF], []) := by
  decide
/-- R79, op 0x4, of F20's frame. -/
theorem test_decode_decode : decode [0, 0b0100, 0x22, 0x3E, 0x04, 0x20, 0x7B, 0xFF, 0] = .ok (.decode frame20, []) := by decide
/-- R79, op 0x5 to 0x7. -/
theorem test_decode_encInfo : decode [0, 0b0101] = .ok (.encInfo, []) := by decide
theorem test_decode_encStatus : decode [0, 0b0110] = .ok (.encStatus, []) := by decide
theorem test_decode_encCells : decode [0, 0b0111] = .ok (.encCells, []) := by decide
/-- R79, op 0x8, with V-E1's operands. -/
theorem test_decode_encGen :
    decode [0, 0b1000, 0x3E, 0x22, 0x01, 0x10, 1, 0x20, 0] = .ok (.encGen 0x3E 0x22 0x01 0x10 [0x20], []) := by decide
/-- R79, op 0x9, of V-D31's record. -/
theorem test_decode_snapApply :
    decode [0, 0b1001, 0, 0x22, 0x3E, 0x04, 0x20, 0x7B, 0xFE, 0, 0] = .ok (.snapApply ⟨false, frameBad, []⟩, []) := by decide
/-- R79, op 0xA to 0xF. -/
theorem test_decode_snapRead : decode [0, 0b1010] = .ok (.snapRead, []) := by decide
theorem test_decode_reset : decode [0, 0b1011] = .ok (.reset, []) := by decide
theorem test_decode_reservedC : decode [0, 0b1100] = .ok (.reservedC, []) := by decide
theorem test_decode_reservedD : decode [0, 0b1101] = .ok (.reservedD, []) := by decide
theorem test_decode_reservedE : decode [0, 0b1110] = .ok (.reservedE, []) := by decide
theorem test_decode_reservedF : decode [0, 0b1111] = .ok (.reservedF, []) := by decide
/-- R76, gate bit 0: BAD20. -/
theorem test_decode_decBadck :
    decode [1, 0b0, 0x22, 0x3E, 0x04, 0x20, 0x7B, 0xFE, 0] = .ok (.decBadck 0x22 0x3E 0x04 0x20 0xFE7B [], []) := by decide
/-- R76: key 0x0410 = 0000 0100 0001 0000, the low byte (index) first. -/
theorem test_decode_decInfo : decode [2, 0b00010000, 0b00000100, 0x22, 0x3E, 0] = .ok (.decInfo 0x22 0x3E [], []) := by decide
theorem test_decode_decEmpty20 : decode [2, 0b00100000, 0b00000100, 0x22, 0x3E, 0] = .ok (.decEmpty20 0x22 0x3E [], []) := by
  decide
theorem test_decode_decStatus : decode [2, 0b00110000, 0b00000100, 0x22, 0x3E, 0] = .ok (.decStatus 0x22 0x3E [], []) := by
  decide
theorem test_decode_decCells : decode [2, 0b01000000, 0b00000100, 0x22, 0x3E, 0] = .ok (.decCells 0x22 0x3E [], []) := by decide
theorem test_decode_decEmpty50 : decode [2, 0b01010000, 0b00000100, 0x22, 0x3E, 0] = .ok (.decEmpty50 0x22 0x3E [], []) := by
  decide
/-- R76: key 0x1004, the two bytes of 0x0410 exchanged (V-D30). -/
theorem test_decode_decUnknown :
    decode [2, 0b00000100, 0b00010000, 0x22, 0x3E, 0] = .ok (.decUnknown 0x22 0x3E 0x10 0x04 [], []) := by decide
/-- R60, bit by bit: F50. -/
theorem test_decode_frame :
    decode [3, 0b01011010, 0b10100101, 0b00000010, 0b00100010, 0b00111110, 0b00000100, 0b01010000, 0b10101011, 0b11001101,
      0b11010001, 0b11111101] = .ok (.frame 0x22 0x3E 0x04 0x50 [0xAB, 0xCD] 0xFDD1, []) := by decide
/-- R80, bit by bit: the request of R164's example. -/
theorem test_decode_reqframe :
    decode [4, 0b01011010, 0b10100101, 0b00000001, 0b00111110, 0b00100010, 0b00000001, 0b00010000, 0b00100000, 0b01101101,
      0b11111111] = .ok (.reqframe 0x3E 0x22 0x01 0x10 0x20, []) := by decide
/-- R82, in the order it lists them. -/
theorem test_decode_drain : decode [5, 0] = .ok (.drain, []) := by decide
theorem test_decode_pump : decode [5, 1, 1, 0x5A, 0] = .ok (.pump [0x5A], []) := by decide
theorem test_decode_poll : decode [5, 2] = .ok (.poll, []) := by decide

/-- What is no invocation is rejected by name. -/
theorem test_decode_rejects :
    decode [] = .error .truncated ∧ decode [6] = .error (.unknownFormat 6) ∧ decode [0, 0x10] = .error (.codeTooWide 0x10) ∧
    decode [1, 1] = .error .gatePassed ∧ decode [5, 3] = .error (.unknownPseudo 3) ∧
    decode [0, 0, 2, 0] = .error (.badFlag 2) ∧
    decode [3, 0xA5, 0x5A, 0, 0, 0, 0, 0, 0, 0] = .error .badMarker ∧
    decode [4, 0x5A, 0xA5, 0, 0, 0, 0, 0, 0, 0, 0] = .error .badLength ∧
    decode [4, 0x5A, 0xA5, 1, 0, 0, 0, 0, 0, 0, 0] = .error .badChecksum ∧
    decode [1, 0, 0x22, 0x3E, 0x04, 0x20, 0x7B, 0xFF, 0] = .error .illFormed := by decide

/-! ## One step against the vectors -/

/-- R100's example. -/
theorem test_feed : bufAfter (.feed [0xA5, 0x00]) (buffered [0x5A]) = some [0x5A, 0xA5, 0x00] := by decide
/-- R101's example: lead-in, a frame, and one byte more. -/
theorem test_extract_frame :
    resultsOf .extract (buffered ([0x00] ++ f20 ++ [0x5A])) = some [.extracted (some frame20)] ∧
      bufAfter .extract (buffered ([0x00] ++ f20 ++ [0x5A])) = some [0x5A] := by decide
/-- V-X7: the lead-in goes although the frame is partial. -/
theorem test_extract_partial :
    bufAfter .extract (buffered [0xFF, 0xFF, 0xFF, 0x5A, 0xA5, 0x02, 0x22, 0x3E, 0x04, 0x50, 0xAB]) =
      some [0x5A, 0xA5, 0x02, 0x22, 0x3E, 0x04, 0x50, 0xAB] := by decide
/-- V-C3, V-C4: the core function. -/
theorem test_cksum16 : cksum16 [0xFF] = 0xFF00 ∧ cksum16 [0x00, 0x22, 0x3E, 0x04, 0x20] = 0xFF7B := by decide
/-- V-C7, V-C12. -/
theorem test_ckCompute :
    resultsOf (.ckCompute f20) State.reset = some [.ck 0xFF7B] ∧
      resultsOf (.ckCompute [0x00, 0x00, 0xFF, 0xFF]) State.reset = some [.ck 0xFFFF] := by decide
/-- V-C13. -/
theorem test_ckCompute_refused :
    exec (.ckCompute [0x5A, 0xA5, 0x00]) State.reset = .refused .shortChecksumInput := rfl
/-- V-C8, V-C10. -/
theorem test_ckVerify :
    resultsOf (.ckVerify f20) State.reset = some [.ok true] ∧
      resultsOf (.ckVerify [0x5A, 0xA5, 0x00, 0x22, 0x3E, 0x04, 0x20, 0xFF, 0x7B]) State.reset = some [.ok false] := by
  decide
/-- V-C14: the marker bytes are not looked at. -/
theorem test_ckVerify_marker :
    resultsOf (.ckVerify [0x00, 0x00, 0x00, 0x22, 0x3E, 0x04, 0x20, 0x7B, 0xFF]) State.reset = some [.ok true] := by decide
/-- V-D7: the odd byte makes no word. -/
theorem test_decode_status : resultsOf (.decode frameStatus) State.reset = some [.record ⟨true, frameStatus, fieldsStatus⟩] := by
  decide
/-- V-D31. -/
theorem test_decode_bad : resultsOf (.decode frameBad) State.reset = some [.record ⟨false, frameBad, []⟩] := by decide
/-- V-E9: the first three bytes of each request; the others are open. -/
theorem test_encInfo :
    (requestFrame Config.infoRequest).take 3 = [0x5A, 0xA5, 0x01] ∧
      exec .encInfo State.reset = .next { State.reset with results := [.data (requestFrame Config.infoRequest)] } :=
  ⟨rfl, rfl⟩
/-- V-E10. -/
theorem test_encStatus :
    (requestFrame Config.statusRequest).take 3 = [0x5A, 0xA5, 0x01] ∧
      exec .encStatus State.reset = .next { State.reset with results := [.data (requestFrame Config.statusRequest)] } :=
  ⟨rfl, rfl⟩
/-- V-E10. -/
theorem test_encCells :
    (requestFrame Config.cellsRequest).take 3 = [0x5A, 0xA5, 0x01] ∧
      exec .encCells State.reset = .next { State.reset with results := [.data (requestFrame Config.cellsRequest)] } :=
  ⟨rfl, rfl⟩
/-- V-E1, V-E6. -/
theorem test_encGen :
    resultsOf (.encGen 0x3E 0x22 0x01 0x10 [0x20]) State.reset =
        some [.data [0x5A, 0xA5, 0x01, 0x3E, 0x22, 0x01, 0x10, 0x20, 0x6D, 0xFF]] ∧
      resultsOf (.encGen 0x20 0x22 0x03 0x7A [0x01, 0x00]) State.reset =
        some [.data [0x5A, 0xA5, 0x02, 0x20, 0x22, 0x03, 0x7A, 0x01, 0x00, 0x3D, 0xFF]] := by decide
/-- V-E5: the largest ten-byte sum. -/
theorem test_reqframe :
    resultsOf (.reqframe 0xFF 0xFF 0xFF 0xFF 0xFF) State.reset =
      some [.data [0x5A, 0xA5, 0x01, 0xFF, 0xFF, 0xFF, 0xFF, 0xFF, 0x03, 0xFB]] := by decide
/-- V-N4: one key overwritten, one kept, four added. -/
theorem test_snapApply_good :
    snapAfter (.snapApply ⟨true, frameStatus, fieldsStatus⟩)
        (holding [(.voltageV, .fx ⟨3912, 2⟩), (.healthPercent, .u 98)] (some ⟨0xFE7B, 0xFF7B⟩)) =
      some (fieldsStatus ++ [(.healthPercent, .u 98)], none) := by decide
/-- V-N7: the later failure replaces the earlier. -/
theorem test_snapApply_failed :
    snapAfter (.snapApply ⟨false, frameBad, []⟩) (holding [(.healthPercent, .u 98)] (some ⟨1, 2⟩)) =
      some ([(.healthPercent, .u 98)], some ⟨0xFE7B, 0xFF7B⟩) := by decide
/-- R173's example. -/
theorem test_snapRead :
    resultsOf .snapRead (holding [(.healthPercent, .u 98)] (some ⟨0xFE7B, 0xFF7B⟩)) =
      some [.snapshot [(.healthPercent, .u 98)] (some ⟨0xFE7B, 0xFF7B⟩)] := by decide
/-- R200's example. -/
theorem test_reset : bufAfter .reset (buffered [0x5A, 0xA5, 0x18]) = some [] := by decide
/-- R79. -/
theorem test_reserved : exec .reservedC State.reset = .refused (.reservedOp 0xC) := rfl
/-- V-D33: a bad checksum wins over an unknown key. -/
theorem test_decBadck :
    resultsOf (.decBadck 0x22 0x3E 0x04 0x99 0x7EF9 [1, 2, 3]) State.reset =
      some [.record ⟨false, ⟨3, 0x22, 0x3E, 0x04, 0x99, [1, 2, 3], 0x7EF9, 0xFEF9⟩, []⟩] := by decide
/-- V-D11: the serial number, and nibbles above 9 in decimal: 15.10.11.12. -/
theorem test_decInfo :
    resultsOf (.decInfo 0x22 0x3E (serialBytes ++ [0xBC, 0xFA])) State.reset =
      some [.record ⟨true, frameInfo,
        [(.serial, .text (serialBytes.map fun b => .ascii (b.setWidth 7))),
          (.fwVersion, .text (([0x31, 0x35, 0x2E, 0x31, 0x30, 0x2E, 0x31, 0x31, 0x2E, 0x31, 0x32] : List (BitVec 7)).map
            .ascii))]⟩] := by decide
/-- V-D16: 0xC7 replaced, line feed and NUL kept. -/
theorem test_decInfo_replacement :
    fieldLookup (infoFields [0x0A, 0x4A, 0xC7, 0x43, 0x41, 0x31, 0x32, 0x33, 0x34, 0x43, 0x30, 0x30, 0x30, 0x00]) .serial =
      some (.text ([.ascii 0x0A, .ascii 0x4A, .replacement, .ascii 0x43, .ascii 0x41, .ascii 0x31, .ascii 0x32, .ascii 0x33,
        .ascii 0x34, .ascii 0x43, .ascii 0x30, .ascii 0x30, .ascii 0x30, .ascii 0x00])) := by decide
/-- V-D26. -/
theorem test_decEmpty20 :
    resultsOf (.decEmpty20 0x22 0x3E [1, 2, 3, 4]) State.reset =
      some [.record ⟨true, ⟨4, 0x22, 0x3E, 0x04, 0x20, [1, 2, 3, 4], 0xFF6D, 0xFF6D⟩, []⟩] := by decide
/-- V-D5: the extremes; only word 3 is signed. -/
theorem test_decStatus :
    statusFields [0xFF, 0xFF, 0x00, 0x00, 0x64, 0x00, 0x00, 0x80, 0xFF, 0xFF, 0x00, 0xFF] =
      [(.functionFlags, .u 65535), (.remainingCapacityMah, .u 0), (.remainingPercent, .u 100),
        (.currentA, .fx ⟨-32768, 2⟩), (.voltageV, .fx ⟨65535, 2⟩), (.temp1C, .s (-20)), (.temp2C, .s 235)] := by decide
/-- V-D3: thirteen words, one of them reserved. -/
theorem test_decStatus_reserved :
    fieldLookup (statusFields (List.replicate 24 0 ++ [0xEF, 0xBE])) .reserved = some (.raw [0xBEEF]) := by decide
/-- V-D20: only 0xFFFF is absent. -/
theorem test_decCells :
    resultsOf (.decCells 0x22 0x3E [0x68, 0x10, 0xFE, 0xFF, 0x00, 0x00]) State.reset =
      some [.record ⟨true, ⟨6, 0x22, 0x3E, 0x04, 0x40, [0x68, 0x10, 0xFE, 0xFF, 0x00, 0x00], 0xFCE0, 0xFCE0⟩,
        [(.cells, .cells [(1, ⟨4200, 3⟩), (2, ⟨65534, 3⟩), (3, ⟨0, 3⟩)])]⟩] := by decide
/-- V-S1 (FCE): the third cell is absent and the others keep their numbers. -/
theorem test_decCells_absent :
    cellsFields [0xE8, 0x03, 0xE9, 0x03, 0xFF, 0xFF, 0xEB, 0x03] =
      [(.cells, .cells [(1, ⟨1000, 3⟩), (2, ⟨1001, 3⟩), (4, ⟨1003, 3⟩)])] := by decide
/-- V-D27. -/
theorem test_decEmpty50 :
    resultsOf (.decEmpty50 0x22 0x3E [0xAB, 0xCD]) State.reset = some [.record ⟨true, frame50, []⟩] := by decide
/-- V-D29. -/
theorem test_decUnknown :
    resultsOf (.decUnknown 0x22 0x3E 0x05 0x30 [1, 0, 2, 0]) State.reset = some [.record ⟨true, frameUnknown, []⟩] := by
  decide
/-- R60: F50 on the wire, behind a byte already there. -/
theorem test_frame :
    bufAfter (.frame 0x22 0x3E 0x04 0x50 [0xAB, 0xCD] 0xFDD1) (buffered [0x13]) =
      some [0x13, 0x5A, 0xA5, 0x02, 0x22, 0x3E, 0x04, 0x50, 0xAB, 0xCD, 0xD1, 0xFD] := by decide
/-- V-X10: two frames, then `None`. -/
theorem test_drain :
    resultsOf .drain (buffered (f20 ++ [0x5A, 0xA5, 0x02, 0x22, 0x3E, 0x04, 0x50, 0xAB, 0xCD, 0xD1, 0xFD])) =
      some [.extracted (some frame20), .extracted (some frame50), .extracted none] := by decide
/-- P2: a good frame and a bad one; the marker is set, the fields stay. -/
theorem test_pump :
    snapAfter (.pump [0x5A, 0xA5, 0x06, 0x22, 0x3E, 0x04, 0x30, 0x01, 0x00, 0x78, 0x1E, 0x4B, 0x00, 0x83, 0xFE,
        0x5A, 0xA5, 0x06, 0x22, 0x3E, 0x04, 0x30, 0x01, 0x00, 0x78, 0x1E, 0x4B, 0x00, 0x82, 0xFE]) State.reset =
      some ([(.functionFlags, .u 1), (.remainingCapacityMah, .u 7800), (.remainingPercent, .u 75)],
        some ⟨0xFE82, 0xFE83⟩) := by decide
/-- R82: three requests, in the order the source lists them. -/
theorem test_poll :
    exec .poll State.reset = .next { State.reset with results :=
      [.data (requestFrame Config.infoRequest), .data (requestFrame Config.statusRequest),
        .data (requestFrame Config.cellsRequest)] } := rfl
/-- A table word runs as the very next step after reset (op 0x1: EXTRACT of an empty `BUF`). -/
theorem test_step_table_word :
    (match step (State.reset.withFetchWord 8 0x1) with
      | .next t => some (t.results, t.calls)
      | _ => none) = some ([.extracted none], []) := by decide

/-! ## For every statement with hypotheses, a state and operands that meet them -/

/-- An operation that ends in a next state, computed. -/
theorem meets {i : Instr} {s : State} (h : (match exec i s with | .next _ => true | _ => false) = true) :
    ∃ t, exec i s = .next t := by
  cases e : exec i s with
  | next t => exact ⟨t, rfl⟩
  | fault f => cases f
  | refused r => rw [e] at h; cases h

/-- Nine bytes of noise (V-X3). -/
def noise9 : List Byte := [0x00, 0x11, 0x22, 0x33, 0x44, 0x55, 0x66, 0x77, 0x88]

theorem test_witness_DecodeOfEncode_payload : (Instr.encGen 0 0 0 0 payload255).wf = true := by
  simp [Instr.wf, payloadFits, payload255_length]
theorem test_witness_DecodeOfEncode_checked :
    (Instr.decBadck 0x22 0x3E 0x04 0x20 0xFE7B []).wf = true ∧ (Instr.decUnknown 0x22 0x3E 0x04 0x99 []).wf = true ∧
      (Instr.snapApply ⟨true, frameStatus, fieldsStatus⟩).wf = true ∧ (Instr.ckVerify [0, 0, 0, 0]).wf = true ∧
      (Instr.decode frameBad).wf = true := by decide
theorem test_witness_DecoderYields : decode [0, 0b0001, 0x77] = .ok (.extract, [0x77]) := by decide
theorem test_witness_StepRuns : decode (State.reset.setCalls [0, 0b1011, 5, 0]).calls = .ok (.reset, [5, 0]) := by decide
theorem test_witness_StepNeeds :
    State.reset.calls = [] ∧ (State.reset.setCalls [6]).calls ≠ [] ∧
      decode (State.reset.setCalls [6]).calls = .error (.unknownFormat 6) := by decide
theorem test_witness_ChecksumLaws_perm : ([1, 2, 3] : List Byte).Perm [3, 2, 1] := by decide
/-- V-C5 and V-C6. -/
theorem test_witness_ChecksumLaws_values :
    byteSum (List.replicate 257 0xFF) % 65536 = 65535 ∧ byteSum (List.replicate 257 0xFF ++ [0x01]) % 65536 = 0 := by
  have h : byteSum (List.replicate 257 0xFF) = 65535 := by
    rw [byteSum, List.map_replicate, List.sum_replicate]; rfl
  rw [byteSum_append, h]
  exact ⟨rfl, rfl⟩
theorem test_witness_ChecksumWraps :
    frameWf (validFrame 0xFF 0xFF 0xFF 0xFF (List.replicate 252 0xFF)) = true ∧
      (validFrame 0xFF 0xFF 0xFF 0xFF (List.replicate 252 0xFF)).length.toNat ≤ 252 := by
  obtain ⟨p, hp, hl⟩ : ∃ p : List Byte, p = List.replicate 252 0xFF ∧ p.length = 252 := ⟨_, rfl, List.length_replicate ..⟩
  rw [← hp]
  refine ⟨by rw [validFrame_wf]; simp [payloadFits, hl], ?_⟩
  simp [validFrame, sealFrame, hl]
theorem test_witness_ChecksumUnitRefuses : ([0x5A, 0xA5, 0x00] : List Byte).length < 4 := by decide
theorem test_witness_FeedAppends : ∃ s t, exec (.feed []) s = .next t ∧ exec (.feed [0x5A]) s = exec (.feed [0x5A]) t :=
  ⟨State.reset, State.reset, rfl, rfl⟩
/-- At the capacity, and one byte over it. -/
theorem test_witness_FiniteCapacity :
    (buffered f20).buf.length + [0x5A].length ≤ 10 ∧ 10 < (buffered f20).buf.length + [0x5A, 0xA5].length := by decide
theorem test_witness_ExtractKeeps : (buffered (f20.take 8)).buf.length < 9 := by decide
theorem test_witness_ExtractDiscards : 9 ≤ (buffered noise9).buf.length ∧ ∀ i, ¬ markerAt (buffered noise9).buf i :=
  ⟨by decide, (findMarker_none_iff _).mp (by decide)⟩
/-- V-X6: the marker is the last two of nine bytes. -/
theorem test_witness_ExtractWaits_needLen :
    9 ≤ (buffered (List.replicate 7 0 ++ [0x5A, 0xA5])).buf.length ∧
      (markerAt (buffered (List.replicate 7 0 ++ [0x5A, 0xA5])).buf 7 ∧
        ∀ j < 7, ¬ markerAt (buffered (List.replicate 7 0 ++ [0x5A, 0xA5])).buf j) ∧
      (buffered (List.replicate 7 0 ++ [0x5A, 0xA5])).buf.length < 7 + 3 :=
  ⟨by decide, (findMarker_some_iff _ 7).mp (by decide), by decide⟩
/-- F50 short of its last byte. -/
theorem test_witness_ExtractWaits_partial :
    9 ≤ (buffered ((frameBytes frame50).take 10)).buf.length ∧
      (markerAt (buffered ((frameBytes frame50).take 10)).buf 0 ∧
        ∀ j < 0, ¬ markerAt (buffered ((frameBytes frame50).take 10)).buf j) ∧
      ∃ len, (buffered ((frameBytes frame50).take 10)).buf[0 + 2]? = some len ∧
        (buffered ((frameBytes frame50).take 10)).buf.length < 0 + 9 + len.toNat :=
  ⟨by decide, (findMarker_some_iff _ 0).mp (by decide), 2, by decide, by decide⟩
/-- V-X12: one byte of lead-in. -/
theorem test_witness_ExtractSkips :
    9 ≤ (buffered ([0x5A] ++ f20)).buf.length ∧
      (markerAt (buffered ([0x5A] ++ f20)).buf 1 ∧ ∀ j < 1, ¬ markerAt (buffered ([0x5A] ++ f20)).buf j) :=
  ⟨by decide, (findMarker_some_iff _ 1).mp (by decide)⟩
theorem test_witness_ExtractCuts :
    (buffered (f20 ++ [0x5A])).buf =
        [0x5A, 0xA5, 0x00, 0x22, 0x3E, 0x04, 0x20] ++ ([] : List Byte) ++ [0x7B, 0xFF] ++ [0x5A] ∧
      ([] : List Byte).length = (0x00 : Byte).toNat := by decide
/-- V-X14: the longest frame. -/
theorem test_witness_ExtractCuts_longest :
    (buffered ([0x5A, 0xA5, 0xFF, 0x22, 0x3E, 0x04, 0x30] ++ payload255 ++ [0x6B, 0x00] ++ [])).buf =
        [0x5A, 0xA5, 0xFF, 0x22, 0x3E, 0x04, 0x30] ++ payload255 ++ [0x6B, 0x00] ++ [] ∧
      payload255.length = (0xFF : Byte).toNat := ⟨rfl, payload255_length⟩
theorem test_witness_ExtractedFrame :
    ∃ t, exec .extract (buffered ([0x00] ++ f20)) = .next t ∧ t.results = [.extracted (some frame20)] :=
  ⟨_, rfl, by decide⟩
/-- The four ways to return `None`: V-X1, V-X3, V-X6, V-X7. -/
theorem test_witness_ExtractNone :
    ∀ b ∈ [f20.take 8, noise9, List.replicate 7 0 ++ [0x5A, 0xA5], [0xFF] ++ (frameBytes frame50).take 10],
      ∃ t, exec .extract (buffered b) = .next t ∧ t.results = [.extracted none] :=
  fun b hb => ⟨_, rfl, by revert b; decide⟩
/-- V-X20: eight zero bytes and a 0x5A. -/
theorem test_witness_SplitMarker :
    (buffered (List.replicate 8 0 ++ [0x5A])).buf = List.replicate 8 0 ++ [0x5A] ∧
      8 ≤ (List.replicate 8 (0 : Byte)).length ∧ ∀ i, ¬ markerAt (buffered (List.replicate 8 0 ++ [0x5A])).buf i :=
  ⟨rfl, by decide, (findMarker_none_iff _).mp (by decide)⟩
/-- F20 in two chunks cut behind its marker. -/
theorem test_witness_ChunkingKeeps : noSplitMarker [[0x5A, 0xA5], f20.drop 2] State.reset :=
  ⟨fun h => absurd h.2 (by decide), fun h => absurd h.2 (by decide), trivial⟩
/-- A payload at the bound and one over it: EncGenBuildsTheFrame, EncodedFrameVerifies, WireFrameArrives, the arms. -/
theorem test_witness_payload_bounds :
    payload255.length ≤ 255 ∧ 255 < payload256.length ∧ State.reset.buf = [] :=
  ⟨Nat.le_of_eq payload255_length, by rw [payload256_length]; decide, rfl⟩
theorem test_witness_DecodeIsTotal :
    frameWf frameBad = true ∧ frameWf ⟨2, 0x22, 0x3E, 0x04, 0x20, [0xAB], 0, 0xFECE⟩ = false := by decide
theorem test_witness_BadChecksum : frameWf frameBad = true ∧ frameBad.checksumReceived ≠ frameBad.checksumComputed := by decide
/-- One frame for each arm. -/
theorem test_witness_SelectedArm :
    ∀ fr ∈ [frameInfo, frame20, frameStatus, frameCells, frame50, frameUnknown],
      frameWf fr = true ∧ fr.checksumReceived = fr.checksumComputed := by decide
theorem test_witness_ArmsRefuse_known : ∀ index ∈ [(0x10 : Byte), 0x20, 0x30, 0x40, 0x50], knownKey 0x04 index := by
  unfold knownKey; decide
/-- One byte too long, under an index next to a known one, and with a trailer that is not the checksum. -/
theorem test_witness_ArmsRefuse_long :
    255 < payload256.length ∧ ¬ knownKey 0x04 0x51 ∧
      ∃ received, received ≠ cksum16 ([BitVec.ofNat 8 payload256.length, 0x22, 0x3E, 0x04, 0x20] ++ payload256) :=
  ⟨by rw [payload256_length]; decide, by unfold knownKey; decide, by generalize cksum16 _ = c; exact ⟨c + 1, by bv_omega⟩⟩
theorem test_witness_EmptyArms :
    (frame20.cmd = 0x04 ∧ frame20.index = 0x20) ∧ (frame50.cmd = 0x04 ∧ frame50.index = 0x50) ∧
      ¬ (frameUnknown.cmd = 0x04 ∧ (frameUnknown.index = 0x10 ∨ frameUnknown.index = 0x20 ∨ frameUnknown.index = 0x30 ∨
        frameUnknown.index = 0x40 ∨ frameUnknown.index = 0x50)) := by decide
/-- The payload lengths at which the raw fields come in, and a firmware word. -/
theorem test_witness_RawTail :
    (List.replicate 25 (0 : Byte)).length < 26 ∧ (26 : Nat) ≤ (List.replicate 26 (0 : Byte)).length ∧
      (List.replicate 27 (0 : Byte)).length < 28 ∧ (28 : Nat) ≤ (List.replicate 28 (0 : Byte)).length ∧
      wordOf (serialBytes ++ [0xBC, 0xFA]) 7 = some 0xFABC := by decide
theorem test_witness_FieldsAreOmitted_info :
    frameWf frameInfo = true ∧ (frameInfo.cmd = 0x04 ∧ frameInfo.index = 0x10) ∧
      ∃ m, exec (.decode frameInfo) State.reset = .next { State.reset with results := [.record ⟨true, frameInfo, m⟩] } :=
  ⟨by decide, by decide, _, rfl⟩
theorem test_witness_FieldsAreOmitted_status :
    frameWf frameStatus = true ∧ (frameStatus.cmd = 0x04 ∧ frameStatus.index = 0x30) ∧
      ∃ m, exec (.decode frameStatus) State.reset = .next { State.reset with results := [.record ⟨true, frameStatus, m⟩] } :=
  ⟨by decide, by decide, _, rfl⟩
/-- V-D24. -/
theorem test_witness_FieldsAreOmitted_cells :
    frameWf frameCells = true ∧ (frameCells.cmd = 0x04 ∧ frameCells.index = 0x40) ∧
      ∃ m, exec (.decode frameCells) State.reset = .next { State.reset with results := [.record ⟨true, frameCells, m⟩] } ∧
        ∃ cm, fieldLookup m .cells = some (.cells cm) ∧ (2, (⟨3701, 3⟩ : Fixed)) ∈ cm :=
  ⟨by decide, by decide, _, rfl, _, rfl, by decide⟩
/-- F20 from two addresses. -/
theorem test_witness_AddressesDoNotMatter :
    let g : Frame := ⟨0, 0x3E, 0x23, 0x04, 0x20, [], 0xFF7A, 0xFF7A⟩
    frameWf frame20 = true ∧ frameWf g = true ∧ frame20.checksumReceived = frame20.checksumComputed ∧
      g.checksumReceived = g.checksumComputed ∧ frame20.cmd = g.cmd ∧ frame20.index = g.index ∧
      frame20.payload = g.payload ∧ frame20.src ≠ g.src := by decide
theorem test_witness_FailedRecord : (⟨false, frameBad, []⟩ : DecodedRecord).checksumOk = false := rfl
theorem test_witness_GoodRecord :
    (⟨true, frameStatus, fieldsStatus⟩ : DecodedRecord).checksumOk = true ∧ fieldMapCanonical fieldsStatus = true := by decide
theorem test_witness_ApplyIsIdempotent :
    fieldMapCanonical fieldsStatus = true ∧
      fieldMapCanonical (holding [(.voltageV, .fx ⟨3912, 2⟩)] none).snapFields = true ∧
      ∃ t, exec (.snapApply ⟨true, frameStatus, fieldsStatus⟩) (holding [(.voltageV, .fx ⟨3912, 2⟩)] none) = .next t :=
  ⟨by decide, by decide, _, rfl⟩
/-- A key that was there, and a record that overwrites it. -/
theorem test_witness_OnlyResetRemoves :
    (∃ t, exec (.snapApply ⟨true, frameStatus, fieldsStatus⟩) (holding [(.voltageV, .fx ⟨3912, 2⟩)] none) = .next t) ∧
      Instr.snapApply ⟨true, frameStatus, fieldsStatus⟩ ≠ .reset ∧
      (fieldLookup (holding [(.voltageV, .fx ⟨3912, 2⟩)] none).snapFields .voltageV).isSome = true :=
  ⟨⟨_, rfl⟩, by decide, by decide⟩
theorem test_witness_EveryOperation :
    ∀ i ∈ [Instr.feed [0x5A], .extract, .ckVerify f20, .decode frameBad, .encInfo, .encGen 0 0 0 0 [], .snapRead, .reset,
        .decBadck 0x22 0x3E 0x04 0x20 0xFE7B [], .decUnknown 0x22 0x3E 0x04 0x99 [], .drain, .pump f20, .poll],
      i.wf = true ∧ isReserved i = false := by decide
theorem test_witness_Owners :
    (writesBuf (.ckVerify f20) = false ∧ ∃ t, exec (.ckVerify f20) (buffered f20) = .next t) ∧
      (writesSnap .extract = false ∧ ∃ t, exec .extract (buffered f20) = .next t) :=
  ⟨⟨rfl, meets (by decide)⟩, rfl, _, rfl⟩
theorem test_witness_FirstInFirstOut : (∃ t, exec (.pump [0x5A]) (buffered noise9) = .next t) ∧ Instr.pump [0x5A] ≠ .reset :=
  ⟨⟨_, rfl⟩, by decide⟩
/-- Each label is met: X0 to X5. -/
theorem test_witness_Conditions :
    extractConditions f20 = [.frame] ∧ extractConditions (f20.take 8) = [.short] ∧ extractConditions noise9 = [.noise] ∧
      extractConditions (List.replicate 7 0 ++ [0x5A, 0xA5]) = [.leadIn, .needLen] ∧
      extractConditions ((frameBytes frame50).take 10) = [.partialFrame] ∧
      ∃ t, exec .extract (buffered f20) = .next t := ⟨by decide, by decide, by decide, by decide, by decide, _, rfl⟩
/-- Y0 to Y3 are met: V-D25, V-D31, V-D29, and a byte 0xC7 in the serial number. -/
theorem test_witness_Conditions_decode :
    (decodeConditions frame20 = [.ok] ∧ frameWf frame20 = true) ∧
      (decodeConditions frameBad = [.badCk] ∧ frameWf frameBad = true) ∧
      (decodeConditions frameUnknown = [.unknown] ∧ frameWf frameUnknown = true) ∧
      (decodeConditions (validFrame 0x22 0x3E 0x04 0x10 [0xC7]) = [.ok, .repl] ∧
        frameWf (validFrame 0x22 0x3E 0x04 0x10 [0xC7]) = true) := by decide
/-- A Snapshot with fields and a marker, and a frame waiting in `BUF`. -/
theorem test_witness_StepKeeps :
    inv (((holding [(.healthPercent, .u 98)] (some ⟨0xFE7B, 0xFF7B⟩)).setBuf f20).setCalls [0, 0b0001]) = true ∧
      ∃ t, step (((holding [(.healthPercent, .u 98)] (some ⟨0xFE7B, 0xFF7B⟩)).setBuf f20).setCalls [0, 0b0001]) = .next t :=
  ⟨by decide, _, rfl⟩
end Sys2Proof.Tests
end

section
/-!
The Checksum Unit's arithmetic (R90), from the laws of the accumulator and of the complement.
-/
namespace Sys2Proof.Checksum

open Sys2Proof Sys2Proof.Machine

/-- Settles O6: by `cksum16_toNat`, which rests on the induction over the bytes in `accumulate_toNat`; the empty
sequence leaves the accumulator at zero. -/
theorem checksumIsTheComplementOfTheSum : Obligations.ChecksumIsTheComplementOfTheSum :=
  ⟨cksum16_toNat, by decide⟩

end Sys2Proof.Checksum
end

section
/-!
The Frame Synchronizer's EXTRACT (R101 to R109): a buffer below nine bytes is kept, and a well-formed frame at the front
of the buffer is the one cut off. The second rests on `cutFrame_cases` and on the byte image of a well-formed frame being
prefix-free: no other frame and rest read as the same bytes.
-/
namespace Sys2Proof.Synchronizer

open Sys2Proof Sys2Proof.Machine

/-- EXTRACT writes `BUF` and the results, and nothing else. -/
theorem extract_eq_of_extractBuf {s : State} {fr : Option Frame} {b : List Byte} (h : extractBuf s.buf = (fr, b)) :
    exec .extract s = .next { s with buf := b, results := [.extracted fr] } := by
  have e : exec .extract s =
      .next { s with buf := (extractBuf s.buf).2, results := [.extracted (extractBuf s.buf).1] } := rfl
  rw [e, h]

/-- Steps 1 to 3 on a buffer that starts with the marker (R102 to R104): the length test passed, the cut decides. -/
theorem extractBuf_of_marker_front {tail : List Byte} (h : 7 ≤ tail.length) :
    extractBuf (Params.marker0 :: Params.marker1 :: tail) = cutFrame (Params.marker0 :: Params.marker1 :: tail) := by
  have h9 : ¬ (Params.marker0 :: Params.marker1 :: tail).length < Params.minFrame := by
    simp only [List.length_cons, Params.minFrame]; omega
  rw [extractBuf, if_neg h9, findMarker_front]
  rfl

/-- The byte image of a well-formed frame says where it ends and what the frame is (R24, R25): the length byte fixes the
payload's end, the trailer is the received checksum, and a well-formed frame is the one sealed from these parts. -/
theorem frameBytes_append_inj {f g : Frame} {r r' : List Byte} (hf : frameWf f = true) (hg : frameWf g = true)
    (h : frameBytes f ++ r = frameBytes g ++ r') : f = g ∧ r = r' := by
  have hfl := ((frameWf_iff f).mp hf).1
  have hgl := ((frameWf_iff g).mp hg).1
  simp only [frameBytes, frameBody, List.append_assoc, List.cons_append, List.nil_append, List.cons.injEq, true_and] at h
  obtain ⟨hlen, hsrc, htgt, hcmd, hindex, htail⟩ := h
  obtain ⟨hpayload, htail⟩ := List.append_inj htail (by rw [hfl, hgl, hlen])
  simp only [List.cons.injEq] at htail
  obtain ⟨hlo, hhi, hrest⟩ := htail
  have hreceived : f.checksumReceived = g.checksumReceived := by
    rw [← le16_lo_hi f.checksumReceived, hlo, hhi, le16_lo_hi]
  refine ⟨?_, hrest⟩
  calc f = sealFrame f.src f.tgt f.cmd f.index f.checksumReceived f.payload := (sealFrame_of_wf f hf).symm
    _ = sealFrame g.src g.tgt g.cmd g.index g.checksumReceived g.payload := by
      rw [hsrc, htgt, hcmd, hindex, hreceived, hpayload]
    _ = g := sealFrame_of_wf g hg

/-- R108: a well-formed frame at the front of the buffer is returned, and exactly its bytes leave. -/
theorem extractBuf_frameBytes {f : Frame} (hf : frameWf f = true) (rest : List Byte) :
    extractBuf (frameBytes f ++ rest) = (some f, rest) := by
  obtain ⟨tail, htail⟩ : ∃ tail, frameBytes f ++ rest = Params.marker0 :: Params.marker1 :: f.length :: tail := ⟨_, rfl⟩
  have hlen : tail.length = 6 + f.length.toNat + rest.length := by
    have := congrArg List.length htail
    have := ((frameWf_iff f).mp hf).1
    simp only [List.length_append, List.length_cons, frameBytes_length] at *
    omega
  rw [htail, extractBuf_of_marker_front (by rw [List.length_cons]; omega)]
  rcases cutFrame_cases (f.length :: tail) with ⟨hnil, -⟩ | ⟨len, more, hcons, hshort, -⟩ | ⟨g, rest', hg, hbytes, hcut⟩
  · cases hnil
  · cases hcons
    omega
  · obtain ⟨rfl, rfl⟩ := frameBytes_append_inj hf hg (htail.trans hbytes)
    exact hcut

/-- R102: the length test comes before any search. -/
theorem extractBuf_of_short {b : List Byte} (h : b.length < 9) : extractBuf b = (none, b) := if_pos h

/-- Settles O18: the bytes are those of the frame sealed from these header fields, this payload and this trailer, and
`extractBuf_frameBytes` cuts it off whatever the trailer is. -/
theorem extractCutsTheFrameAtTheFront : Obligations.ExtractCutsTheFrameAtTheFront := by
  intro s len src tgt cmd index lo hi payload rest hbuf hpayload
  obtain rfl : len = BitVec.ofNat 8 payload.length := by rw [hpayload, BitVec.ofNat_toNat, BitVec.setWidth_eq]
  have hwf : frameWf (sealFrame src tgt cmd index (le16 lo hi) payload) = true := (frameWf_iff _).mpr ⟨hpayload, rfl⟩
  have hcut : extractBuf s.buf = (some (sealFrame src tgt cmd index (le16 lo hi) payload), rest) := by
    rw [← extractBuf_frameBytes hwf rest, hbuf]
    simp [sealFrame, frameBytes, frameBody]
  exact ⟨_, extract_eq_of_extractBuf hcut, hwf, rfl, rfl, rfl, rfl, rfl, rfl, le16_toNat lo hi, cksum16_toNat _⟩

/-- Settles O14: by `extractBuf_of_short`, EXTRACT hands back the buffer it found. -/
theorem extractKeepsAShortBuffer : Obligations.ExtractKeepsAShortBuffer :=
  fun _ hshort => extract_eq_of_extractBuf (extractBuf_of_short hshort)

end Sys2Proof.Synchronizer
end

section
/-!
The Field Decoder: the gate (R121, R127), the arms that give no fields (R155 to R157), and the word-backed fields of the
info arm (R133, R134). DECODE and the instruction of an arm build the same record, because a well-formed frame is the
one built from its parts; what a field map holds is read off one identifier at a time.
-/
namespace Sys2Proof.FieldDecoder

open Sys2Proof Sys2Proof.Machine Sys2Proof.Safety

theorem gatePasses_iff (fr : Frame) : gatePasses fr = true ↔ fr.checksumReceived = fr.checksumComputed := beq_iff_eq

theorem returnRecord_of_wf {fr : Frame} (hwf : frameWf fr = true) (ok : Bool) (m : FieldMap) (s : State) :
    returnRecord ok fr m s = .next { s with results := [.record ⟨ok, fr, m⟩] } := if_pos hwf

/-- R120: DECODE of a well-formed frame returns its record, and writes nothing else. -/
theorem decode_of_wf {fr : Frame} (hwf : frameWf fr = true) (s : State) :
    exec (.decode fr) s = .next { s with results := [.record (decodeRecord fr)] } := if_pos hwf

theorem decodeRecord_of_ne {fr : Frame} (hck : fr.checksumReceived ≠ fr.checksumComputed) :
    decodeRecord fr = ⟨false, fr, []⟩ := if_neg (mt (gatePasses_iff fr).mp hck)

/-- R123: past the gate, the key selects the fields. -/
theorem decodeRecord_of_gate {fr : Frame} (hg : gatePasses fr = true) :
    decodeRecord fr = ⟨true, fr, armFields (armOfKey (dispatchKey fr.cmd fr.index)) fr.payload⟩ := if_pos hg

/-- R123: DEC.UNKNOWN's arm is the one of the keys outside the five. -/
theorem armOfKey_eq_unknown_iff (cmd index : Byte) :
    armOfKey (dispatchKey cmd index) = .unknown ↔ ¬ knownKey cmd index := by
  have hkeys : knownKey cmd index ↔ dispatchKey cmd index ∈
      [Params.keyInfo, Params.keyEmpty20, Params.keyStatus, Params.keyCells, Params.keyEmpty50] := by
    simp [knownKey, dispatchKey_eq_iff, hiByte, loByte, and_or_left]
  rw [hkeys, armOfKey]
  split_ifs <;> simp_all

/-- R155 to R157: the two empty arms and the unknown one give no fields. -/
theorem armFields_eq_nil {cmd index : Byte} (payload : List Byte)
    (h : (cmd = 0x04 ∧ (index = 0x20 ∨ index = 0x50)) ∨ ¬ knownKey cmd index) :
    armFields (armOfKey (dispatchKey cmd index)) payload = [] := by
  rcases h with ⟨rfl, rfl | rfl⟩ | hunknown
  · rfl
  · rfl
  · rw [(armOfKey_eq_unknown_iff cmd index).mpr hunknown]
    rfl

/-- Settles O35: the gate fails, so DECODE's record has no fields; DEC.BADCK builds the same frame from its parts
(`sealFrame_of_wf`) and finds the same gate closed. -/
theorem badChecksumGivesNoFields : Obligations.BadChecksumGivesNoFields := by
  intro fr s hwf hck
  have hbadck : exec (.decBadck fr.src fr.tgt fr.cmd fr.index fr.checksumReceived fr.payload) s =
      returnRecord false fr [] s := by
    simp only [exec, execDecBadck, sealFrame_of_wf fr hwf, gatePasses_iff, hck, if_false]
  exact ⟨by rw [decode_of_wf hwf, decodeRecord_of_ne hck], hbadck.trans (returnRecord_of_wf hwf ..)⟩

/-- Settles O38: an empty arm's instruction builds the frame back from its parts (`keyedFrame_of_wf`,
`validFrame_of_wf`), and DECODE's fields under such a key are none by `armFields_eq_nil`. -/
theorem emptyArmsGiveNoFields : Obligations.EmptyArmsGiveNoFields := by
  intro fr s hwf hck
  have hg := (gatePasses_iff fr).mpr hck
  have hempty : returnRecord true fr [] s = .next { s with results := [.record ⟨true, fr, []⟩] } :=
    returnRecord_of_wf hwf ..
  refine ⟨fun hkey => ?_, fun hkey => ?_, fun hkey => ?_, fun hkey => ?_⟩
  · have hframe := keyedFrame_of_wf fr Params.keyEmpty20 hwf hg ((dispatchKey_eq_iff ..).mpr hkey)
    simpa only [exec, execDecEmpty20, hframe] using hempty
  · have hframe := keyedFrame_of_wf fr Params.keyEmpty50 hwf hg ((dispatchKey_eq_iff ..).mpr hkey)
    simpa only [exec, execDecEmpty50, hframe] using hempty
  · have harm := (armOfKey_eq_unknown_iff fr.cmd fr.index).mpr hkey
    simpa only [exec, execDecUnknown, harm, if_true, validFrame_of_wf fr hwf hg] using hempty
  · rw [decode_of_wf hwf, decodeRecord_of_gate hg, armFields_eq_nil fr.payload hkey]

/-- A valid frame under a key decodes to the fields of that key's arm. -/
theorem decode_keyedFrame (key : Word) (src tgt : Byte) {payload : List Byte} (hfits : payloadFits payload = true)
    (s : State) :
    exec (.decode (keyedFrame key src tgt payload)) s =
      returnRecord true (keyedFrame key src tgt payload) (armFields (armOfKey key) payload) s := by
  have hwf := (keyedFrame_wf key src tgt payload).trans hfits
  rw [decode_of_wf hwf, decodeRecord_of_gate (gatePasses_keyedFrame ..), dispatchKey_keyedFrame, returnRecord_of_wf hwf]
  rfl

/-- What DEC.INFO's field map holds under each identifier (R130 to R135). -/
theorem fieldLookup_infoFields (payload : List Byte) (k : FieldId) :
    fieldLookup (infoFields payload) k =
      match k with
      | .serial => some (.text ((payload.take 14).map asciiOrRepl))
      | .fwVersion => (payloadWords payload)[7]?.map fun v => .text (renderVersion v)
      | .capacityMah => (payloadWords payload)[8]?.map .u
      | .totalCapacityMah => (payloadWords payload)[9]?.map .u
      | .designVoltageV => (payloadWords payload)[10]?.map fun v => centi v.toNat
      | .cycleCount => (payloadWords payload)[11]?.map .u
      | .chargeCount => (payloadWords payload)[12]?.map .u
      | .rawTail =>
        if ((payloadWords payload).drop 13).take 3 ≠ [] then some (.raw (((payloadWords payload).drop 13).take 3))
        else none
      | _ => none := by
  simp only [infoFields, fieldLookup_append, fieldLookup_wordField, fieldLookup_rawField, fieldLookup]
  cases k <;> simp

/-- A value made of a word's number is made of the number its two bytes spell (R69). -/
theorem payloadWords_map_toNat {α : Type} (payload : List Byte) (k : Nat) (g : Nat → α) :
    ((payloadWords payload)[k]?.map fun v => g v.toNat) = (wordOf payload k).map g := by
  rw [← payloadWords_getElem?, Option.map_map]
  rfl

theorem payloadWords_map_u (payload : List Byte) (k : Nat) :
    (payloadWords payload)[k]?.map FieldValue.u = (wordOf payload k).map fun n => .u (BitVec.ofNat 16 n) := by
  simp [← payloadWords_map_toNat, BitVec.ofNat_toNat]

/-- Settles O40: the frame is the valid one under the info key, and each field is `fieldLookup_infoFields` at its
identifier, its word read as a number. -/
theorem infoWordFieldValues : Obligations.InfoWordFieldValues := by
  intro src tgt payload s hlen
  have hfits : payloadFits payload = true := decide_eq_true hlen
  have hinfo : exec (.decInfo src tgt payload) s =
      returnRecord true (keyedFrame Params.keyInfo src tgt payload) (infoFields payload) s := rfl
  refine ⟨keyedFrame Params.keyInfo src tgt payload, infoFields payload,
    hinfo.trans (returnRecord_of_wf ((keyedFrame_wf ..).trans hfits) ..), decode_keyedFrame _ src tgt hfits s,
    rfl, rfl, rfl, rfl, rfl, ?_, ?_⟩
  · simp [fieldLookup_infoFields, payloadWords_map_u]
  · exact (fieldLookup_infoFields payload .designVoltageV).trans (payloadWords_map_toNat payload 10 fun n => centi n)

end Sys2Proof.FieldDecoder
end

section
/-!
The Snapshot Model's SNAP.APPLY of a failed record (R171), from the state's update it comes down to.
-/
namespace Sys2Proof.Snapshot

open Sys2Proof Sys2Proof.Machine

/-- The marker a failed record leaves is its own pair of checksums (R171). -/
theorem errAfter_of_failed {r : DecodedRecord} (h : r.checksumOk = false) :
    errAfter r = some ⟨r.frame.checksumReceived, r.frame.checksumComputed⟩ := by
  simp [errAfter, h]

/-- A failed record writes the marker and none of the fields (R171). -/
theorem applyRecord_of_failed {r : DecodedRecord} (h : r.checksumOk = false) (s : State) :
    applyRecord s r = { s with snapErr := some ⟨r.frame.checksumReceived, r.frame.checksumComputed⟩ } := by
  have hfields : (if r.checksumOk then fieldMerge s.snapFields r.fields else s.snapFields) = s.snapFields :=
    if_neg (by simp [h])
  rw [applyRecord, hfields, errAfter_of_failed h]
  rfl

/-- Settles O47: SNAP.APPLY is `applyRecord` with no result, and `applyRecord_of_failed` says what that writes. -/
theorem failedRecordSetsTheMarker : Obligations.FailedRecordSetsTheMarker := by
  intro r s hfailed
  have hexec : exec (.snapApply r) s = .next { applyRecord s r with results := [] } := rfl
  rw [hexec, applyRecord_of_failed hfailed]

end Sys2Proof.Snapshot
end

section
/-!
The encoding of invocations: it loses nothing, because every part of an invocation reads back whatever follows it, and
the decoder of each format reads exactly the parts its encoding wrote.
-/
namespace Sys2Proof.Invocation

open Sys2Proof Sys2Proof.Machine

/-- The decoder is the formats' decoder and the check of the operands behind it. -/
theorem decode_eq_ok_iff {bs rest : List Byte} {i : Instr} :
    decode bs = .ok (i, rest) ↔ decodeRaw bs = .ok (i, rest) ∧ i.wf = true := by
  rcases hraw : decodeRaw bs with why | ⟨j, rest'⟩
  · simp [decode, hraw]
  · by_cases hj : j.wf = true
    · simp only [decode, hraw, except_ok_bind, if_pos hj, Except.ok.injEq, Prod.mk.injEq, iff_self_and]
      rintro ⟨rfl, -⟩
      exact hj
    · simp only [decode, hraw, except_ok_bind, if_neg hj, Except.ok.injEq, Prod.mk.injEq, reduceCtorEq, false_iff]
      rintro ⟨⟨rfl, -⟩, hi⟩
      exact hj hi

/-- The arm's instruction that a key selects (R76). -/
def armInstr (key : Word) (src tgt : Byte) (payload : List Byte) : Instr :=
  match armOfKey key with
  | .info => .decInfo src tgt payload
  | .empty20 => .decEmpty20 src tgt payload
  | .status => .decStatus src tgt payload
  | .cells => .decCells src tgt payload
  | .empty50 => .decEmpty50 src tgt payload
  | .unknown => .decUnknown src tgt (hiByte key) (loByte key) payload

/-- The decoder of dispatch words reads back the key, the addresses and the payload, and the key selects the arm. -/
theorem decodeRaw_encodeArm (key : Word) (src tgt : Byte) (payload rest : List Byte) :
    decodeRaw (encodeArm key src tgt payload ++ rest) = .ok (armInstr key src tgt payload, rest) := by
  have hraw : decodeRaw (encodeArm key src tgt payload ++ rest) =
      decodeDispatch (loByte key :: hiByte key :: src :: tgt :: (encodeSeq payload ++ rest)) := rfl
  rw [hraw, decodeDispatch, decodeSeq_encodeSeq, except_ok_bind, le16_lo_hi, armInstr]
  cases armOfKey key <;> rfl

theorem armInstr_of_unknown {cmd index : Byte} (harm : armOfKey (dispatchKey cmd index) = .unknown) (src tgt : Byte)
    (payload : List Byte) :
    armInstr (dispatchKey cmd index) src tgt payload = .decUnknown src tgt cmd index payload := by
  rw [armInstr, harm, dispatchKey, hiByte_le16, loByte_le16]

/-- A wire frame reads back: its length byte counts the payload, and the trailer is the two bytes behind it (R60). -/
theorem decodeRaw_frame (src tgt cmd index : Byte) (payload rest : List Byte) (ck : Word)
    (hfits : payloadFits payload = true) :
    decodeRaw (encode (.frame src tgt cmd index payload ck) ++ rest) =
      .ok (.frame src tgt cmd index payload ck, rest) := by
  have hlen : (BitVec.ofNat 8 payload.length).toNat = payload.length := by
    have : payload.length ≤ 255 := of_decide_eq_true hfits
    rw [BitVec.toNat_ofNat]; omega
  have hraw : decodeRaw (encode (.frame src tgt cmd index payload ck) ++ rest) =
      decodeWire (Params.marker0 :: Params.marker1 :: BitVec.ofNat 8 payload.length :: src :: tgt :: cmd :: index ::
        (payload ++ loByte ck :: hiByte ck :: rest)) := by
    simp [encode, frameBytes, frameBody, sealFrame, decodeRaw, fmtOp, fmtGate, fmtDispatch, fmtWire]
  simp [hraw, decodeWire, hlen]

/-- A request frame reads back: its length byte and its checksum are those the decoder asks for (R80). -/
theorem decodeRaw_reqframe (src tgt cmd index p0 : Byte) (rest : List Byte) :
    decodeRaw (encode (.reqframe src tgt cmd index p0) ++ rest) = .ok (.reqframe src tgt cmd index p0, rest) := by
  simp [encode, frameBytes, frameBody, validFrame, sealFrame, decodeRaw, fmtOp, fmtGate, fmtDispatch, fmtWire, fmtReq,
    decodeReq]

/-- The record of an invocation of SNAP.APPLY reads back; its number of bytes is fuel enough for its fields. -/
theorem decodeRaw_snapApply (r : DecodedRecord) (rest : List Byte) (hframe : frameWf r.frame = true)
    (hfits : fieldMapFits r.fields = true) :
    decodeRaw (encode (.snapApply r) ++ rest) = .ok (.snapApply r, rest) := by
  have hfuel : r.fields.length < (encodeFields r.fields ++ rest).length + 1 := by
    have := length_encodeFields r.fields
    rw [List.length_append]; omega
  have hraw : decodeRaw (encode (.snapApply r) ++ rest) =
      decodeOp (0x9#8 :: flagByte r.checksumOk :: (encodeFrame r.frame ++ (encodeFields r.fields ++ rest))) := by
    simp [encode, decodeRaw]
  rw [hraw]
  simp only [decodeOp, BitVec.toNat_ofNat, Nat.reducePow, Nat.reduceMod, readFlag_flagByte, except_ok_bind,
    decodeFrame_encodeFrame _ _ hframe, decodeFields_encodeFields _ _ _ hfits hfuel]

/-- Every format reads back what its encoding wrote. -/
theorem decodeRaw_encode (i : Instr) (rest : List Byte) (hwf : i.wf = true) :
    decodeRaw (encode i ++ rest) = .ok (i, rest) := by
  cases i with
  | ckCompute data =>
    have hlen : 4 ≤ data.length := of_decide_eq_true hwf
    simp [encode, decodeRaw, decodeOp, decodeCkInput_encodeCkInput data rest hlen]
  | ckVerify data =>
    have hlen : 4 ≤ data.length := of_decide_eq_true hwf
    simp [encode, decodeRaw, decodeOp, decodeCkInput_encodeCkInput data rest hlen]
  | decode fr => simp [encode, decodeRaw, decodeOp, decodeFrame_encodeFrame fr rest hwf]
  | snapApply r =>
    simp only [Instr.wf, recordWf, fieldMapWf, Bool.and_eq_true] at hwf
    obtain ⟨⟨⟨hframe, -⟩, -, hfits⟩, -⟩ := hwf
    exact decodeRaw_snapApply r rest hframe hfits
  | decBadck src tgt cmd index rx payload => simp [encode, decodeRaw, fmtOp, fmtGate, decodeGate]
  | decInfo src tgt payload => exact decodeRaw_encodeArm Params.keyInfo src tgt payload rest
  | decEmpty20 src tgt payload => exact decodeRaw_encodeArm Params.keyEmpty20 src tgt payload rest
  | decStatus src tgt payload => exact decodeRaw_encodeArm Params.keyStatus src tgt payload rest
  | decCells src tgt payload => exact decodeRaw_encodeArm Params.keyCells src tgt payload rest
  | decEmpty50 src tgt payload => exact decodeRaw_encodeArm Params.keyEmpty50 src tgt payload rest
  | decUnknown src tgt cmd index payload =>
    simp only [Instr.wf, Bool.and_eq_true, beq_iff_eq] at hwf
    obtain ⟨-, harm⟩ := hwf
    have hraw := decodeRaw_encodeArm (dispatchKey cmd index) src tgt payload rest
    rwa [armInstr_of_unknown harm] at hraw
  | frame src tgt cmd index payload ck => exact decodeRaw_frame src tgt cmd index payload rest ck hwf
  | reqframe src tgt cmd index p0 => exact decodeRaw_reqframe src tgt cmd index p0 rest
  | feed data => simp [encode, decodeRaw, decodeOp]
  | encGen src tgt cmd index payload => simp [encode, decodeRaw, decodeOp]
  | pump data =>
    simp [encode, decodeRaw, fmtOp, fmtGate, fmtDispatch, fmtWire, fmtReq, fmtPseudo, decodePseudo]
  | extract | encInfo | encStatus | encCells | snapRead | reset | reservedC | reservedD | reservedE | reservedF
  | drain | poll => rfl

/-- Settles O1: each format reads back (`decodeRaw_encode`), and well-formed operands pass the check. -/
theorem decodeOfEncodeIsTheInstruction : Obligations.DecodeOfEncodeIsTheInstruction :=
  fun i rest hwf => decode_eq_ok_iff.mpr ⟨decodeRaw_encode i rest hwf, hwf⟩

end Sys2Proof.Invocation
end

section
/-!
What every instruction can do, said once: it reads and returns results, or it moves bytes through `BUF` as a queue, or it
applies records to the Snapshot, or it is RESET. Who may write what (R20, R22), the order of `BUF` (R43), the Snapshot's
growth (R175) and the machine's invariant follow from that one statement.
-/
namespace Sys2Proof.Effects

open Sys2Proof Sys2Proof.Machine Sys2Proof.Safety

/-! ## Instructions that only read -/

/-- The state is left as it was but for the result ports, and well-formed results come from a state with the invariant. -/
def Reads (s t : State) : Prop :=
  ∃ rs, t = s.returning rs ∧ (inv s = true → ∀ r ∈ rs, resultWf r = true)

theorem Reads.of_returns {r : Result} {s t : State} (h : returns r s = .next t)
    (hr : inv s = true → resultWf r = true) : Reads s t := by
  cases h
  exact ⟨[r], rfl, fun hinv => List.forall_mem_singleton.mpr (hr hinv)⟩

/-- An operation that is refused unless its guard holds, and returns one result otherwise. -/
theorem Reads.of_guard {c : Prop} [Decidable c] {r : Result} {why : Refusal} {s t : State}
    (h : (if c then returns r s else .refused why) = .next t) (hr : c → resultWf r = true) : Reads s t := by
  split at h
  case isTrue hc => exact .of_returns h fun _ => hr hc
  case isFalse => cases h

/-- The record of a frame that passes the gate is well formed with any well-formed fields (R26, R30). -/
theorem recordWf_of_gate {fr : Frame} {m : FieldMap} (hwf : frameWf fr = true) (hg : gatePasses fr = true)
    (hm : fieldMapWf m = true) : recordWf ⟨true, fr, m⟩ = true := by
  have hck : (fr.checksumReceived == fr.checksumComputed) = true := hg
  simp [recordWf, hwf, hck, hm]

/-- The record of a frame that fails the gate has no fields, and is well formed (R26, R127). -/
theorem recordWf_of_failed {fr : Frame} (hwf : frameWf fr = true) (hg : ¬ gatePasses fr = true) :
    recordWf ⟨false, fr, []⟩ = true := by
  have hck : (fr.checksumReceived == fr.checksumComputed) = false := by simpa [gatePasses] using hg
  simp [recordWf, hwf, hck, fieldMapWf, fieldMapCanonical, fieldMapFits]

/-- The arms past the gate return a record of the fields of some arm (R123). -/
theorem Reads.of_arm {fr : Frame} {s t : State} (arm : Arm) (payload : List Byte) (hg : gatePasses fr = true)
    (h : returnRecord true fr (armFields arm payload) s = .next t) : Reads s t :=
  .of_guard h fun hwf => recordWf_of_gate hwf hg (armFields_wf arm payload)

/-- R20 and R22: an instruction that owns no state reads only. -/
theorem exec_reads {i : Instr} {s t : State} (h : exec i s = .next t) (hbuf : writesBuf i = false)
    (hsnap : writesSnap i = false) : Reads s t := by
  cases i with
  | feed | extract | reset | frame | drain | pump => cases hbuf
  | snapApply => cases hsnap
  | reservedC | reservedD | reservedE | reservedF => cases h
  | ckCompute | ckVerify | encGen => exact .of_guard h fun _ => rfl
  | encInfo | encStatus | encCells | reqframe => exact .of_returns h fun _ => rfl
  | decode fr => exact .of_guard h fun hwf => decodeRecord_wf fr hwf
  | snapRead =>
    refine .of_returns h fun hinv => ?_
    simp only [inv, Bool.and_eq_true] at hinv
    simp only [resultWf, Bool.and_eq_true]
    exact hinv.1
  | decBadck src tgt cmd index rx payload =>
    simp only [exec, execDecBadck] at h
    split at h
    case isTrue => cases h
    case isFalse hg => exact .of_guard h fun hwf => recordWf_of_failed hwf hg
  | decInfo src tgt payload => exact .of_arm .info payload (gatePasses_keyedFrame ..) h
  | decEmpty20 src tgt payload => exact .of_arm .empty20 payload (gatePasses_keyedFrame ..) h
  | decStatus src tgt payload => exact .of_arm .status payload (gatePasses_keyedFrame ..) h
  | decCells src tgt payload => exact .of_arm .cells payload (gatePasses_keyedFrame ..) h
  | decEmpty50 src tgt payload => exact .of_arm .empty50 payload (gatePasses_keyedFrame ..) h
  | decUnknown src tgt cmd index payload =>
    simp only [exec, execDecUnknown] at h
    split at h
    case isTrue => exact .of_arm .unknown payload (gatePasses_validFrame ..) h
    case isFalse => cases h
  | poll =>
    cases h
    exact ⟨_, rfl, fun _ => by simp [resultWf]⟩

/-! ## Every instruction -/

/-- What an instruction other than RESET does: `kept` is what of `BUF` and of the bytes fed stays, `records` are applied
to the Snapshot, `rs` is returned. -/
structure Effect (i : Instr) (s t : State) (kept : List Byte) (records : List DecodedRecord) (rs : List Result) :
    Prop where
  state : t = (records.foldl applyRecord (s.setBuf kept)).returning rs
  kept_suffix : kept <:+ s.buf ++ fedBytes i
  buf_owner : writesBuf i = false → kept = s.buf
  snap_owner : writesSnap i = false → records = []
  records_wf : i.wf = true → ∀ r ∈ records, recordWf r = true
  results_wf : inv s = true → ∀ r ∈ rs, resultWf r = true

theorem fedBytes_of_not_writesBuf {i : Instr} (h : writesBuf i = false) : fedBytes i = [] := by
  cases i with
  | feed | frame | pump => cases h
  | _ => rfl

/-- An instruction that reads only keeps all of `BUF` and applies nothing. -/
theorem Reads.effect {i : Instr} {s t : State} (h : Reads s t) (hbuf : writesBuf i = false) :
    ∃ kept records rs, Effect i s t kept records rs := by
  obtain ⟨rs, rfl, hwf⟩ := h
  exact ⟨s.buf, [], rs, rfl, by rw [fedBytes_of_not_writesBuf hbuf, List.append_nil], fun _ => rfl, fun _ => rfl,
    fun _ => by simp, hwf⟩

/-- An instruction that moves bytes through `BUF` and applies no record. -/
theorem Effect.of_setBuf {i : Instr} {s : State} {kept : List Byte} {rs : List Result} (hbuf : writesBuf i = true)
    (hkept : kept <:+ s.buf ++ fedBytes i) (hwf : ∀ r ∈ rs, resultWf r = true) :
    Effect i s ((s.setBuf kept).returning rs) kept [] rs :=
  ⟨rfl, hkept, fun h => by simp [hbuf] at h, fun _ => rfl, fun _ => by simp, fun _ => hwf⟩

theorem extractBuf_isSuffix (b : List Byte) : (extractBuf b).2 <:+ b :=
  (extractBuf_suffix b).imp fun _ h => h.symm

theorem drainBuf_isSuffix (b : List Byte) : (drainBuf b).2 <:+ b :=
  (drainBuf_suffix b).imp fun _ h => h.symm

/-- A frame that EXTRACT returns is well formed (R24). -/
theorem extracted_wf (b : List Byte) : resultWf (.extracted (extractBuf b).1) = true := by
  rcases h : extractBuf b with ⟨_ | fr, rest⟩
  · rfl
  · exact (extractBuf_some h).1

/-- What a drain returns is well formed (R24). -/
theorem drainResults_wf {fs : List Frame} (h : ∀ f ∈ fs, frameWf f = true) :
    ∀ r ∈ drainResults fs, resultWf r = true := by
  intro r hr
  simp only [drainResults, List.mem_append, List.mem_map, List.mem_singleton] at hr
  rcases hr with ⟨f, hf, rfl⟩ | rfl
  · exact h f hf
  · rfl

/-- The records a pump makes of its drain's frames are well formed (R26, R120). -/
theorem decodeRecords_wf {fs : List Frame} (h : ∀ f ∈ fs, frameWf f = true) :
    ∀ r ∈ fs.map decodeRecord, recordWf r = true := by
  intro r hr
  obtain ⟨f, hf, rfl⟩ := List.mem_map.mp hr
  exact decodeRecord_wf f (h f hf)

theorem fedBytes_frame (src tgt cmd index : Byte) (payload : List Byte) (ck : Word) :
    fedBytes (.frame src tgt cmd index payload ck) = frameBytes (sealFrame src tgt cmd index ck payload) := by
  simp [fedBytes, frameBytes, frameBody, sealFrame]

/-- SNAP.APPLY one after another does not look at the result ports. -/
theorem applyRecords_returning (records : List DecodedRecord) (s : State) (rs : List Result) :
    records.foldl applyRecord (s.returning rs) = (records.foldl applyRecord s).returning rs := by
  induction records generalizing s with
  | nil => rfl
  | cons r records ih => exact ih (applyRecord s r)

/-- PUMP drains its operand behind `BUF`, and applies and returns the records of the drain's frames (R82). -/
theorem exec_pump (data : List Byte) (s : State) :
    exec (.pump data) s = .next
      ((((drainBuf (s.buf ++ data)).1.map decodeRecord).foldl applyRecord (s.setBuf (drainBuf (s.buf ++ data)).2)).returning
        (drainResults (drainBuf (s.buf ++ data)).1 ++ ((drainBuf (s.buf ++ data)).1.map decodeRecord).map .record)) := by
  have hexec : exec (.pump data) s = .next
      ((((drainBuf (s.buf ++ data)).1.map decodeRecord).foldl applyRecord
          ((s.setBuf (drainBuf (s.buf ++ data)).2).returning [])).returning
        (drainResults (drainBuf (s.buf ++ data)).1 ++ ((drainBuf (s.buf ++ data)).1.map decodeRecord).map .record)) := rfl
  rw [hexec, applyRecords_returning]
  rfl

/-- PUMP moves its operand and `BUF` through a drain, and the records it applies and returns are well formed. -/
theorem pump_effect (data : List Byte) (s : State) : ∃ t kept records rs,
    exec (.pump data) s = .next t ∧ Effect (.pump data) s t kept records rs := by
  have hframes := drainBuf_wf (s.buf ++ data)
  refine ⟨_, _, _, _, exec_pump data s, rfl, drainBuf_isSuffix _, nofun, nofun, fun _ => decodeRecords_wf hframes,
    fun _ r hr => ?_⟩
  rcases List.mem_append.mp hr with hr | hr
  · exact drainResults_wf hframes r hr
  · obtain ⟨rec, hrec, rfl⟩ := List.mem_map.mp hr
    exact decodeRecords_wf hframes rec hrec

/-- Everything an instruction other than RESET can do. -/
theorem exec_effect {i : Instr} {s t : State} (h : exec i s = .next t) (hreset : i ≠ .reset) :
    ∃ kept records rs, Effect i s t kept records rs := by
  cases i with
  | reset => exact absurd rfl hreset
  | feed data =>
    cases h
    exact ⟨_, _, _, .of_setBuf rfl List.suffix_rfl (by simp)⟩
  | extract =>
    cases h
    exact ⟨_, _, _, .of_setBuf rfl (by simpa [fedBytes] using extractBuf_isSuffix s.buf)
      (List.forall_mem_singleton.mpr (extracted_wf s.buf))⟩
  | drain =>
    cases h
    exact ⟨_, _, _, .of_setBuf rfl (by simpa [fedBytes] using drainBuf_isSuffix s.buf)
      (drainResults_wf (drainBuf_wf s.buf))⟩
  | frame src tgt cmd index payload ck =>
    simp only [exec, execFrame, feedBuf_unbounded] at h
    split at h
    · cases h
      exact ⟨_, _, _, .of_setBuf rfl (by rw [fedBytes_frame]) (by simp)⟩
    · cases h
  | snapApply r =>
    cases h
    refine ⟨s.buf, [r], [], rfl, by simp [fedBytes], fun _ => rfl, nofun, fun hwf => ?_, by simp⟩
    exact List.forall_mem_singleton.mpr hwf
  | pump data =>
    obtain ⟨t', kept, records, rs, hexec, heffect⟩ := pump_effect data s
    cases hexec.symm.trans h
    exact ⟨kept, records, rs, heffect⟩
  | _ => exact (exec_reads h rfl rfl).effect rfl

/-! ## Who writes what -/

theorem Effect.buf {i : Instr} {s t : State} {kept : List Byte} {records : List DecodedRecord} {rs : List Result}
    (h : Effect i s t kept records rs) : t.buf = kept := by
  rw [h.state]
  exact (applyRecords_frame records (s.setBuf kept)).1

theorem Effect.calls {i : Instr} {s t : State} {kept : List Byte} {records : List DecodedRecord} {rs : List Result}
    (h : Effect i s t kept records rs) : t.calls = s.calls := by
  rw [h.state]
  exact (applyRecords_frame records (s.setBuf kept)).2.1

theorem Effect.snapFields {i : Instr} {s t : State} {kept : List Byte} {records : List DecodedRecord}
    {rs : List Result} (h : Effect i s t kept records rs) :
    t.snapFields = (records.foldl applyRecord (s.setBuf kept)).snapFields := by rw [h.state]; rfl

/-- Settles O56: RESET owns all three items; any other instruction's effect (`exec_effect`) keeps `BUF` and applies no
record where it owns neither, and never touches what is pending. -/
theorem onlyTheOwnersWriteState : Obligations.OnlyTheOwnersWriteState := by
  intro i s t h
  by_cases hreset : i = .reset
  · subst hreset
    cases h
    exact ⟨nofun, nofun, rfl⟩
  · obtain ⟨kept, records, rs, heffect⟩ := exec_effect h hreset
    refine ⟨fun hbuf => heffect.buf.trans (heffect.buf_owner hbuf), fun hsnap => ?_, heffect.calls⟩
    rw [heffect.state, heffect.snap_owner hsnap]
    exact ⟨rfl, rfl⟩

/-- Settles O57: what an instruction keeps is the end of what was there and what it fed (`exec_effect`). -/
theorem bufferIsFirstInFirstOut : Obligations.BufferIsFirstInFirstOut := by
  intro i s t h hreset
  obtain ⟨kept, records, rs, heffect⟩ := exec_effect h hreset
  obtain ⟨gone, hgone⟩ := heffect.kept_suffix
  exact ⟨gone, by rw [heffect.buf, hgone]⟩

/-- A merge keeps every key (R172). -/
theorem isSome_fieldLookup_fieldMerge {m : FieldMap} {k : FieldId} (new : FieldMap)
    (h : (fieldLookup m k).isSome = true) : (fieldLookup (fieldMerge m new) k).isSome = true := by
  induction new generalizing m with
  | nil => exact h
  | cons e new ih =>
    refine ih ?_
    rw [fieldLookup_insert]
    split
    · rfl
    · exact h

/-- Records applied one after another keep every key of the Snapshot (R171, R172). -/
theorem isSome_fieldLookup_applyRecords {s : State} {k : FieldId} (records : List DecodedRecord)
    (h : (fieldLookup s.snapFields k).isSome = true) :
    (fieldLookup (records.foldl applyRecord s).snapFields k).isSome = true := by
  induction records generalizing s with
  | nil => exact h
  | cons r records ih =>
    refine ih ?_
    rw [applyRecord_snapFields]
    split
    · exact isSome_fieldLookup_fieldMerge r.fields h
    · exact h

/-- Settles O50: the Snapshot after any instruction but RESET is the one before it with records applied
(`exec_effect`), and applying a record only inserts. -/
theorem onlyResetRemovesAField : Obligations.OnlyResetRemovesAField := by
  intro i s t h hreset k hk
  obtain ⟨kept, records, rs, heffect⟩ := exec_effect h hreset
  rw [heffect.snapFields]
  exact isSome_fieldLookup_applyRecords records hk

/-! ## The invariant -/

theorem inv_iff (s : State) : inv s = true ↔
    fieldMapWf s.snapFields = true ∧ s.snapErr.all (fun p => p.received != p.computed) = true ∧
      ∀ r ∈ s.results, resultWf r = true := by
  simp [inv, and_assoc]

/-- A well-formed record leaves the Snapshot's map well formed, and a marker of two checksums that differ. -/
theorem inv_applyRecord {s : State} {r : DecodedRecord} (hs : inv s = true) (hr : recordWf r = true) :
    inv (applyRecord s r) = true := by
  obtain ⟨hfields, -, hresults⟩ := (inv_iff s).mp hs
  simp only [recordWf, fieldMapWf, Bool.and_eq_true, beq_iff_eq] at hr hfields
  obtain ⟨⟨⟨-, hok⟩, -, hnew⟩, -⟩ := hr
  refine (inv_iff _).mpr ⟨?_, ?_, hresults⟩
  · simp only [applyRecord_snapFields, fieldMapWf, Bool.and_eq_true]
    split
    · exact ⟨canonical_merge _ _ hfields.1, fits_merge _ _ hfields.2 hnew⟩
    · exact hfields
  · rw [applyRecord_snapErr, errAfter]
    split
    · rfl
    · next hfailed => simpa [hok] using hfailed

theorem inv_applyRecords {s : State} {records : List DecodedRecord} (hs : inv s = true)
    (hrecords : ∀ r ∈ records, recordWf r = true) : inv (records.foldl applyRecord s) = true := by
  induction records generalizing s with
  | nil => exact hs
  | cons r records ih =>
    exact ih (inv_applyRecord hs (hrecords r (by simp))) fun x hx => hrecords x (by simp [hx])

theorem inv_returning {s : State} {rs : List Result} (hs : inv s = true) (hrs : ∀ r ∈ rs, resultWf r = true) :
    inv (s.returning rs) = true := by
  obtain ⟨hfields, herr, -⟩ := (inv_iff s).mp hs
  exact (inv_iff _).mpr ⟨hfields, herr, hrs⟩

/-- Every well-formed instruction keeps the invariant. -/
theorem exec_keeps_inv {i : Instr} {s t : State} (hwf : i.wf = true) (hs : inv s = true) (h : exec i s = .next t) :
    inv t = true := by
  by_cases hreset : i = .reset
  · subst hreset
    cases h
    rfl
  · obtain ⟨kept, records, rs, heffect⟩ := exec_effect h hreset
    have hbuf : inv (s.setBuf kept) = true := hs
    rw [heffect.state]
    exact inv_returning (inv_applyRecords hbuf (heffect.records_wf hwf)) (heffect.results_wf hs)

/-- A step is one well-formed instruction, run from the state with its bytes taken off the queue. -/
theorem step_next {s t : State} (h : step s = .next t) :
    ∃ i rest, i.wf = true ∧ exec i (s.setCalls rest) = .next t := by
  simp only [step, takeInvocation] at h
  split at h
  · next i s' htake =>
    split at htake
    · cases htake
    · split at htake
      · next i' rest hdecode =>
        cases htake
        exact ⟨i, rest, (Invocation.decode_eq_ok_iff.mp hdecode).2, h⟩
      · cases htake
  · cases h

/-- Settles O60: a step runs one well-formed instruction (`step_next`), and each of those keeps the invariant: its
records and results are well formed (`exec_effect`), and applying records keeps the Snapshot's form. -/
theorem stepKeepsTheInvariant : Obligations.StepKeepsTheInvariant := by
  intro s t hs h
  obtain ⟨i, rest, hwf, hexec⟩ := step_next h
  have hpending : inv (s.setCalls rest) = true := hs
  exact exec_keeps_inv hwf hpending hexec

/-- Settles O59: at reset there is nothing in the Snapshot and nothing on the result ports. -/
theorem resetSatisfiesTheInvariant : Obligations.ResetSatisfiesTheInvariant :=
  (inv_iff State.reset).mpr ⟨rfl, rfl, by simp⟩

/-- Settles O55: an instruction's guard is what its well-formedness asks for (R180, D6, D22, D23). -/
theorem everyAdmittedOperationCompletes : Obligations.EveryAdmittedOperationCompletes := by
  intro i s hwf hreserved
  cases i with
  | reservedC | reservedD | reservedE | reservedF => cases hreserved
  | ckCompute | ckVerify => exact ⟨_, if_pos (of_decide_eq_true hwf)⟩
  | decode | encGen => exact ⟨_, if_pos hwf⟩
  | frame => exact ⟨_, (if_pos hwf).trans (feedBuf_unbounded ..)⟩
  | decInfo | decEmpty20 | decStatus | decCells | decEmpty50 =>
    exact ⟨_, if_pos ((keyedFrame_wf ..).trans hwf)⟩
  | decBadck src tgt cmd index rx payload =>
    simp only [Instr.wf, Bool.and_eq_true, bne_iff_ne] at hwf
    obtain ⟨hfits, hck⟩ := hwf
    have hgate : ¬ gatePasses (sealFrame src tgt cmd index rx payload) = true :=
      fun hg => hck ((FieldDecoder.gatePasses_iff _).mp hg)
    exact ⟨_, (if_neg hgate).trans (if_pos ((sealFrame_wf ..).trans hfits))⟩
  | decUnknown src tgt cmd index payload =>
    simp only [Instr.wf, Bool.and_eq_true, beq_iff_eq] at hwf
    obtain ⟨hfits, harm⟩ := hwf
    exact ⟨_, (if_pos harm).trans (if_pos ((validFrame_wf ..).trans hfits))⟩
  | _ => exact ⟨_, rfl⟩

end Sys2Proof.Effects
end

section
/-!
The decoder of invocations yields well-formed instructions and takes bytes: each part of an invocation is read off the
front, so what is left is an end of what was there. And the step that runs what the decoder yields.
-/
namespace Sys2Proof.Invocation

open Sys2Proof Sys2Proof.Machine

/-- What a decoder leaves, where it succeeds, is an end of `bs`. -/
def Leaves {α : Type} (bs : List Byte) (x : Except Reject (α × List Byte)) : Prop :=
  ∀ a rest, x = .ok (a, rest) → rest <:+ bs

section Leaves

variable {α β : Type} {bs : List Byte}

theorem Leaves.error {why : Reject} : Leaves (α := α) bs (.error why) := nofun

theorem Leaves.all {a : α} : Leaves bs (.ok (a, bs)) := by
  rintro _ _ ⟨⟩
  exact List.suffix_rfl

theorem Leaves.ok {a : α} {rest : List Byte} (h : rest <:+ bs) : Leaves bs (.ok (a, rest)) := by
  rintro _ _ ⟨⟩
  exact h

theorem Leaves.cons {x : Except Reject (α × List Byte)} {b : Byte} (h : Leaves bs x) : Leaves (b :: bs) x :=
  fun a rest hx => (h a rest hx).trans (List.suffix_cons ..)

theorem Leaves.ite {c : Prop} {_ : Decidable c} {x y : Except Reject (α × List Byte)} (hx : Leaves bs x)
    (hy : Leaves bs y) : Leaves bs (if c then x else y) := by
  split
  · exact hx
  · exact hy

/-- A part is read, then the next one of what it left. -/
theorem Leaves.bind {x : Except Reject (α × List Byte)} {f : α × List Byte → Except Reject (β × List Byte)}
    (hx : Leaves bs x) (hf : ∀ a rest, Leaves rest (f (a, rest))) : Leaves bs (x >>= f) := by
  rcases x with why | ⟨a, rest⟩
  · exact .error
  · exact fun b rest' h => (hf a rest b rest' h).trans (hx a rest rfl)

/-- A byte is checked, and nothing is taken by that. -/
theorem Leaves.check {x : Except Reject α} {f : α → Except Reject (β × List Byte)} (hf : ∀ a, Leaves bs (f a)) :
    Leaves bs (x >>= f) := by
  rcases x with why | a
  · exact .error
  · exact hf a

end Leaves

theorem decodeSeq_leaves (bs : List Byte) : Leaves bs (decodeSeq bs) := by
  induction bs using decodeSeq.induct with
  | case1 => exact .error
  | case2 f => exact .check fun _ => .ite .error (.cons .all)
  | case3 f b rest ih => exact .check fun _ => .ite (.cons (.cons (.bind ih fun _ _ => .all))) (.cons .all)

theorem decodeWords_leaves (bs : List Byte) : Leaves bs (decodeWords bs) := by
  induction bs using decodeWords.induct with
  | case1 f lo hi rest ih =>
    exact .check fun _ => .ite (.cons (.cons (.cons (.bind ih fun _ _ => .all)))) (.cons .all)
  | case2 f rest h =>
    rw [decodeWords]
    · exact .check fun _ => .ite .error (.cons .all)
    · exact h
  | case3 => exact .error

theorem decodeCells_leaves (bs : List Byte) : Leaves bs (decodeCells bs) := by
  induction bs using decodeCells.induct with
  | case1 f n lo hi rest ih =>
    exact .check fun _ => .ite (.cons (.cons (.cons (.cons (.bind ih fun _ _ => .all))))) (.cons .all)
  | case2 f rest h =>
    rw [decodeCells]
    · exact .check fun _ => .ite .error (.cons .all)
    · exact h
  | case3 => exact .error

theorem decodeInt_leaves (bs : List Byte) : Leaves bs (decodeInt bs) := by
  unfold decodeInt
  split
  · exact .cons (.cons (.cons (.check fun _ => .all)))
  · exact .error

theorem decodeValue_leaves (bs : List Byte) : Leaves bs (decodeValue bs) := by
  unfold decodeValue
  split
  · exact .error
  · next t rest =>
    refine .cons (.ite ?_ (.ite ?_ (.ite ?_ (.ite ?_ (.ite ?_ (.ite ?_ .error))))))
    · split
      · exact .cons (.cons .all)
      · exact .error
    · exact .bind (decodeInt_leaves rest) fun _ _ => .all
    · split
      · exact .cons (.bind (decodeInt_leaves _) fun _ _ => .all)
      · exact .error
    · exact .bind (decodeSeq_leaves rest) fun _ _ => .all
    · exact .bind (decodeCells_leaves rest) fun _ _ => .all
    · exact .bind (decodeWords_leaves rest) fun _ _ => .all

theorem decodeFields_leaves (fuel : Nat) (bs : List Byte) : Leaves bs (decodeFields fuel bs) := by
  induction fuel generalizing bs with
  | zero => exact .error
  | succ fuel ih =>
    cases bs with
    | nil => exact .error
    | cons f rest =>
      refine .cons (.check fun _ => .ite ?_ .all)
      split
      · exact .error
      · next n rest' =>
        split
        · exact .error
        · exact .cons (.bind (decodeValue_leaves rest') fun _ rest'' => .bind (ih rest'') fun _ _ => .all)

theorem decodeFrame_leaves (bs : List Byte) : Leaves bs (decodeFrame bs) := by
  unfold decodeFrame
  split
  · exact .cons (.cons (.cons (.cons (.cons (.cons (.bind (decodeSeq_leaves _) fun _ _ => .all))))))
  · exact .error

theorem decodeCkInput_leaves (bs : List Byte) : Leaves bs (decodeCkInput bs) := by
  unfold decodeCkInput
  split
  · exact .cons (.cons (.cons (.cons (.bind (decodeSeq_leaves _) fun _ _ => .all))))
  · exact .error

/-- Format OP: an operation without operands takes its code alone, the others what their operands take. -/
theorem decodeOp_leaves (bs : List Byte) : Leaves bs (decodeOp bs) := by
  unfold decodeOp
  split
  · exact .error
  · next c rest =>
    refine .cons ?_
    split
    case h_1 => exact .bind (decodeSeq_leaves rest) fun _ _ => .all
    case h_3 | h_4 => exact .bind (decodeCkInput_leaves rest) fun _ _ => .all
    case h_5 => exact .bind (decodeFrame_leaves rest) fun _ _ => .all
    case h_9 =>
      split
      · exact .cons (.cons (.cons (.cons (.bind (decodeSeq_leaves _) fun _ _ => .all))))
      · exact .error
    case h_10 =>
      split
      · exact .error
      · exact .cons (.check fun _ => .bind (decodeFrame_leaves _) fun _ r =>
          .bind (decodeFields_leaves (r.length + 1) r) fun _ _ => .all)
    case h_17 => exact .error
    all_goals exact .all

theorem decodeGate_leaves (bs : List Byte) : Leaves bs (decodeGate bs) := by
  unfold decodeGate
  split
  · refine .cons (.ite ?_ (.ite .error .error))
    split
    · exact .cons (.cons (.cons (.cons (.cons (.cons (.bind (decodeSeq_leaves _) fun _ _ => .all))))))
    · exact .error
  · exact .error

theorem decodeDispatch_leaves (bs : List Byte) : Leaves bs (decodeDispatch bs) := by
  unfold decodeDispatch
  split
  · refine .cons (.cons (.cons (.cons (.bind (decodeSeq_leaves _) fun p r => ?_))))
    dsimp only
    split <;> exact .all
  · exact .error

/-- Format WIRE: the payload the length byte counts is dropped off the front, then the trailer. -/
theorem decodeWire_leaves (bs : List Byte) : Leaves bs (decodeWire bs) := by
  unfold decodeWire
  split
  · next m0 m1 len src tgt cmd index rest =>
    refine .cons (.cons (.cons (.cons (.cons (.cons (.cons (.ite (.ite .error ?_) .error)))))))
    split
    · next lo hi r htail =>
      have hr : r <:+ rest.drop len.toNat := htail ▸ (List.suffix_cons ..).trans (List.suffix_cons ..)
      exact .ok (hr.trans (List.drop_suffix ..))
    · exact .error
  · exact .error

theorem decodeReq_leaves (bs : List Byte) : Leaves bs (decodeReq bs) := by
  unfold decodeReq
  split
  · exact .cons (.cons (.cons (.cons (.cons (.cons (.cons (.cons (.cons (.cons
      (.ite (.ite (.ite .all .error) .error) .error))))))))))
  · exact .error

theorem decodePseudo_leaves (bs : List Byte) : Leaves bs (decodePseudo bs) := by
  unfold decodePseudo
  split
  · exact .error
  · exact .cons (.ite .all (.ite (.bind (decodeSeq_leaves _) fun _ _ => .all) (.ite .all .error)))

/-- Every format leaves an end of what stands behind the byte that selects it. -/
theorem decodeRaw_leaves (f : Byte) (bs : List Byte) : Leaves bs (decodeRaw (f :: bs)) :=
  .ite (decodeOp_leaves bs) (.ite (decodeGate_leaves bs) (.ite (decodeDispatch_leaves bs)
    (.ite (decodeWire_leaves bs) (.ite (decodeReq_leaves bs) (.ite (decodePseudo_leaves bs) .error)))))

/-- Settles O2: the operands are checked last, and what a format leaves is an end of what stands behind the byte that
selects it (`decodeRaw_leaves`), so that byte at least is taken. -/
theorem decoderYieldsWellFormedInstructions : Obligations.DecoderYieldsWellFormedInstructions := by
  intro bs i rest h
  obtain ⟨hraw, hwf⟩ := decode_eq_ok_iff.mp h
  refine ⟨hwf, ?_⟩
  cases bs with
  | nil => cases hraw
  | cons f bs =>
    obtain ⟨operands, rfl⟩ := decodeRaw_leaves f bs i rest hraw
    exact ⟨f :: operands, by simp, rfl⟩

/-- The bytes of the whole queue decode to the invocation the step takes off it. -/
theorem takeInvocation_of_decode {s : State} {i : Instr} {rest : List Byte} (h : decode s.calls = .ok (i, rest)) :
    takeInvocation s = .ok (i, s.setCalls rest) := by
  unfold takeInvocation
  split
  · next hnil =>
    rw [hnil] at h
    cases h
  · next b bs hcons => rw [← hcons, h]

/-- Settles O3: the step takes what the decoder yields (`takeInvocation_of_decode`), and runs it. -/
theorem stepRunsTheDecodedInstruction : Obligations.StepRunsTheDecodedInstruction := by
  intro s i rest h
  rw [step, takeInvocation_of_decode h]
  rfl

/-- Settles O4: an empty queue yields nothing to run, and bytes the decoder rejects are refused with its reason. -/
theorem stepNeedsAnInvocation : Obligations.StepNeedsAnInvocation := by
  refine ⟨fun s hnil => ?_, fun s why hne herror => ?_⟩
  · simp only [step, takeInvocation, hnil]
  · obtain ⟨b, bs, hcons⟩ := List.exists_cons_of_ne_nil hne
    rw [hcons] at herror
    simp only [step, takeInvocation, hcons, herror]

/-- Settles O5: each word is decoded. -/
theorem tableWordsDecode : Obligations.TableWordsDecode := by
  unfold Obligations.TableWordsDecode
  decide

end Sys2Proof.Invocation
end

section
/-!
The Checksum Unit (R90 to R95): the laws of the sum, its bounds over a frame, and CK.COMPUTE and CK.VERIFY as the
checksum of the bytes between the first two and the last two.
-/
namespace Sys2Proof.Checksum

open Sys2Proof Sys2Proof.Machine Sys2Proof.Safety

/-- Two sequences of one sum modulo 65536 have one checksum (R90). -/
theorem cksum16_congr {a b : List Byte} (h : byteSum a % 65536 = byteSum b % 65536) : cksum16 a = cksum16 b := by
  apply BitVec.eq_of_toNat_eq
  rw [cksum16_toNat, cksum16_toNat, h]

theorem byteSum_perm {a b : List Byte} (h : a.Perm b) : byteSum a = byteSum b := (h.map BitVec.toNat).sum_eq

/-- The checksum is a given word when the sum is its complement modulo 65536 (R94). -/
theorem cksum16_eq_iff (bs : List Byte) (w : Word) : cksum16 bs = w ↔ byteSum bs % 65536 = 65535 - w.toNat := by
  have := w.isLt
  rw [← BitVec.toNat_inj, cksum16_toNat]
  omega

/-- Settles O7: each law is one of the sum's, carried over by `cksum16_toNat`. -/
theorem checksumLaws : Obligations.ChecksumLaws := by
  refine ⟨fun a b h => cksum16_congr (by rw [byteSum_perm h]), fun a b => ?_, fun a => ?_, fun a => ?_⟩
  · rw [cksum16_toNat, cksum16_toNat, cksum16_toNat, byteSum_append]
    omega
  · exact cksum16_eq_iff a 0xFFFF#16
  · exact cksum16_eq_iff a 0x0000#16

/-- A byte adds at most 255 to a sum. -/
theorem byteSum_le (bs : List Byte) : byteSum bs ≤ 255 * bs.length := by
  induction bs with
  | nil => simp [byteSum_nil]
  | cons b bs ih =>
    have := b.isLt
    rw [byteSum_cons, List.length_cons]
    omega

theorem byteSum_replicate (n : Nat) (b : Byte) : byteSum (List.replicate n b) = n * b.toNat := by simp [byteSum]

/-- The sum over a frame counts its length byte at its own value, and every other byte at no more than 255. -/
theorem byteSum_frameBody_le {fr : Frame} (hwf : frameWf fr = true) :
    byteSum (frameBody fr) ≤ 256 * fr.length.toNat + 1020 := by
  have hlen := ((frameWf_iff fr).mp hwf).1
  have hpayload := byteSum_le fr.payload
  have := fr.src.isLt; have := fr.tgt.isLt; have := fr.cmd.isLt; have := fr.index.isLt
  simp only [frameBody, List.cons_append, List.nil_append, byteSum_cons]
  omega

/-- Settles O8: up to length 252 the bound of `byteSum_frameBody_le` is below 65536; the frame of length 253 whose other
bytes are all 0xFF has the sum 65788. -/
theorem checksumWrapsOnlyFromLength253 : Obligations.ChecksumWrapsOnlyFromLength253 := by
  refine ⟨fun fr hwf hlen => ?_, ?_⟩
  · have := byteSum_frameBody_le hwf
    omega
  · obtain ⟨payload, hpayload, hlen⟩ : ∃ payload : List Byte, payload = List.replicate 253 0xFF ∧ payload.length = 253 :=
      ⟨_, rfl, List.length_replicate⟩
    have hsum : byteSum payload = 253 * 255 := hpayload ▸ byteSum_replicate 253 0xFF
    refine ⟨validFrame 0xFF 0xFF 0xFF 0xFF payload, ?_, ?_, ?_⟩
    · rw [validFrame_wf]
      exact decide_eq_true (by rw [hlen]; decide)
    · simp [validFrame, sealFrame, hlen]
    · simp [frameBody, validFrame, sealFrame, byteSum_cons, hsum, hlen]

/-- CK.COMPUTE's value over two bytes, the covered region and two bytes (R91). -/
theorem ckValue_between (m0 m1 lo hi : Byte) (body : List Byte) :
    ckValue (m0 :: m1 :: (body ++ [lo, hi])) = cksum16 body := by rw [ckValue, covered_between]

/-- CK.VERIFY's value over two bytes, the covered region and two bytes (R92). -/
theorem ckMatches_between (m0 m1 lo hi : Byte) (body : List Byte) :
    ckMatches (m0 :: m1 :: (body ++ [lo, hi])) = (cksum16 body == le16 lo hi) := by
  have htrailer : wordAt (m0 :: m1 :: (body ++ [lo, hi])) (body.length + 2) = le16 lo hi :=
    wordAt_trailer (m0 :: m1 :: body) lo hi
  have hlen : (m0 :: m1 :: (body ++ [lo, hi])).length - Params.trlSize = body.length + 2 := by simp
  rw [ckMatches, ckValue_between, hlen, htrailer]

theorem four_le_length (m0 m1 lo hi : Byte) (body : List Byte) :
    Params.minCkInput ≤ (m0 :: m1 :: (body ++ [lo, hi])).length := by simp

theorem exec_ckCompute {data : List Byte} (hlen : Params.minCkInput ≤ data.length) (s : State) :
    exec (.ckCompute data) s = .next { s with results := [.ck (ckValue data)] } := if_pos hlen

theorem exec_ckVerify {data : List Byte} (hlen : Params.minCkInput ≤ data.length) (s : State) :
    exec (.ckVerify data) s = .next { s with results := [.ok (ckMatches data)] } := if_pos hlen

/-- Settles O9: the region is the bytes between (`ckValue_between`), its checksum that of R90. -/
theorem ckComputeReturnsTheChecksum : Obligations.CkComputeReturnsTheChecksum := by
  intro m0 m1 lo hi body s
  exact ⟨cksum16 body, by rw [exec_ckCompute (four_le_length ..), ckValue_between], cksum16_toNat body⟩

/-- Settles O10: the trailer is the last two bytes, low byte first (`ckMatches_between`). -/
theorem ckVerifyComparesTheTrailer : Obligations.CkVerifyComparesTheTrailer := by
  intro m0 m1 lo hi body s
  refine ⟨cksum16 body == le16 lo hi, by rw [exec_ckVerify (four_le_length ..), ckMatches_between], ?_⟩
  rw [beq_iff_eq, ← BitVec.toNat_inj, cksum16_toNat, le16_toNat, eq_comm]

/-- Settles O11: the guard of both operations is four bytes. -/
theorem checksumUnitRefusesShortInput : Obligations.ChecksumUnitRefusesShortInput := by
  intro data s hshort
  have hguard : ¬ Params.minCkInput ≤ data.length := Nat.not_le.mpr hshort
  exact ⟨if_neg hguard, if_neg hguard⟩

end Sys2Proof.Checksum
end

section
/-!
The Command Encoder (R161 to R165, R80): every request is the general builder's frame, and the builder's frame verifies
(R95) and is received (R166).
-/
namespace Sys2Proof.Encoder

open Sys2Proof Sys2Proof.Machine Sys2Proof.Safety

/-- The bytes of the builder's frame that its checksum covers (R68). -/
abbrev builtBody (src tgt cmd index : Byte) (payload : List Byte) : List Byte :=
  [BitVec.ofNat 8 payload.length, src, tgt, cmd, index] ++ payload

/-- A word's two bytes spell the word (R42). -/
theorem loByte_add_hiByte (w : Word) : (loByte w).toNat + 256 * (hiByte w).toNat = w.toNat := by
  rw [loByte_toNat, hiByte_toNat]
  omega

theorem exec_encGen {payload : List Byte} (hlen : payload.length ≤ 255) (src tgt cmd index : Byte) (s : State) :
    exec (.encGen src tgt cmd index payload) s =
      .next { s with results := [.data (buildFrame src tgt cmd index payload)] } := if_pos (decide_eq_true hlen)

theorem exec_encGen_of_long {payload : List Byte} (hlen : 255 < payload.length) (src tgt cmd index : Byte) (s : State) :
    exec (.encGen src tgt cmd index payload) s = .refused .payloadTooLong :=
  if_neg fun hfits => absurd (of_decide_eq_true hfits) (Nat.not_le.mpr hlen)

/-- Settles O30: by `exec_encGen`, the trailer's two bytes are those of the checksum of R90. -/
theorem encGenBuildsTheFrame : Obligations.EncGenBuildsTheFrame := by
  intro src tgt cmd index payload s
  refine ⟨fun hlen => ?_, fun hlen => exec_encGen_of_long hlen ..⟩
  let ck := cksum16 (builtBody src tgt cmd index payload)
  exact ⟨loByte ck, hiByte ck, exec_encGen hlen .., (loByte_add_hiByte ck).trans (cksum16_toNat _)⟩

/-- The builder's frame is two bytes, the region its checksum covers, and that checksum's two bytes (R165). -/
theorem buildFrame_eq_between (src tgt cmd index : Byte) (payload : List Byte) :
    buildFrame src tgt cmd index payload =
      Params.marker0 :: Params.marker1 :: (builtBody src tgt cmd index payload ++
        [loByte (cksum16 (builtBody src tgt cmd index payload)),
          hiByte (cksum16 (builtBody src tgt cmd index payload))]) := rfl

/-- Settles O31: the trailer of what the builder writes is the checksum of what stands between (`ckMatches_between`). -/
theorem encodedFrameVerifies : Obligations.EncodedFrameVerifies := by
  intro src tgt cmd index payload s hlen
  refine ⟨_, exec_encGen hlen .., ?_⟩
  rw [buildFrame_eq_between, Checksum.exec_ckVerify (Checksum.four_le_length ..), Checksum.ckMatches_between, le16_lo_hi,
    BEq.rfl]

/-- Settles O32: the builder's bytes are the image of a valid frame, which EXTRACT cuts off whole
(`extractBuf_frameBytes`) and DECODE finds past the gate. -/
theorem encodedFrameIsReceived : Obligations.EncodedFrameIsReceived := by
  intro src tgt cmd index payload s hlen hempty
  let fr := validFrame src tgt cmd index payload
  have hwf : frameWf fr = true := (validFrame_wf ..).trans (decide_eq_true hlen)
  have hcut : extractBuf (s.buf ++ frameBytes fr) = (some fr, []) := by
    rw [hempty, ← Synchronizer.extractBuf_frameBytes hwf [], List.append_nil, List.nil_append]
  have hextract := Synchronizer.extract_eq_of_extractBuf (s := (s.setBuf (s.buf ++ frameBytes fr)).returning []) hcut
  have hdecode := FieldDecoder.decode_of_wf hwf s
  rw [FieldDecoder.decodeRecord_of_gate (gatePasses_validFrame ..)] at hdecode
  refine ⟨_, _, fr, _, exec_encGen hlen .., rfl, ?_, rfl, rfl, rfl, rfl, rfl, rfl, rfl, hdecode⟩
  rw [← hempty] at hextract
  exact hextract

/-- A request's checksum is the complement of the sum of its six bytes, and never wraps (R80). -/
theorem cksum16_request (src tgt cmd index p0 : Byte) :
    (cksum16 (builtBody src tgt cmd index [p0])).toNat =
      65535 - (1 + src.toNat + tgt.toNat + cmd.toNat + index.toNat + p0.toNat) := by
  have := src.isLt; have := tgt.isLt; have := cmd.isLt; have := index.isLt; have := p0.isLt
  rw [cksum16_toNat]
  simp only [builtBody, List.cons_append, List.nil_append, byteSum_cons, byteSum_nil, List.length_cons, List.length_nil,
    BitVec.toNat_ofNat]
  omega

/-- Settles O29: REQFRAME is the builder on one payload byte, and six bytes sum to between 1 and 1276. -/
theorem reqframeShape : Obligations.ReqframeShape := by
  intro src tgt cmd index p0 s
  have := src.isLt; have := tgt.isLt; have := cmd.isLt; have := index.isLt; have := p0.isLt
  let ck := cksum16 (builtBody src tgt cmd index [p0])
  have hck : (loByte ck).toNat + 256 * (hiByte ck).toNat =
      65535 - (1 + src.toNat + tgt.toNat + cmd.toNat + index.toNat + p0.toNat) :=
    (loByte_add_hiByte ck).trans (cksum16_request ..)
  exact ⟨loByte ck, hiByte ck, rfl, hck, by omega, by omega⟩

/-- An instruction that returns the request of five bytes returns what the builder and REQFRAME return of them (R164). -/
theorem request_of_exec {i : Instr} {r : RequestBytes} (h : ∀ s, exec i s = returns (.data (requestFrame r)) s) :
    ∃ lo hi : Byte,
      lo.toNat + 256 * hi.toNat =
        65535 - (1 + r.src.toNat + r.tgt.toNat + r.cmd.toNat + r.index.toNat + r.p0.toNat) ∧
      ∀ s : State,
        exec i s = .next { s with results :=
          [.data [0x5A, 0xA5, 0x01, r.src, r.tgt, r.cmd, r.index, r.p0, lo, hi]] } ∧
        exec (.encGen r.src r.tgt r.cmd r.index [r.p0]) s = exec i s ∧
        exec (.reqframe r.src r.tgt r.cmd r.index r.p0) s = exec i s := by
  let ck := cksum16 (builtBody r.src r.tgt r.cmd r.index [r.p0])
  refine ⟨loByte ck, hiByte ck, (loByte_add_hiByte ck).trans (cksum16_request ..), fun s => ?_⟩
  rw [h s]
  exact ⟨rfl, rfl, rfl⟩

/-- Settles O28: the three constants are requests of the bytes the configuration leaves open (`request_of_exec`). -/
theorem requestsAreValidFrames : Obligations.RequestsAreValidFrames := by
  refine ⟨Config.infoRequest, Config.statusRequest, Config.cellsRequest, ?_⟩
  simp only [List.forall_mem_cons, List.not_mem_nil, false_implies, implies_true, and_true]
  exact ⟨request_of_exec fun _ => rfl, request_of_exec fun _ => rfl, request_of_exec fun _ => rfl⟩

/-- Settles O33: the wire bytes are those of the frame sealed from the operands, whatever its trailer. -/
theorem wireFrameArrives : Obligations.WireFrameArrives := by
  intro src tgt cmd index payload ck s
  refine ⟨fun hlen => ?_, fun hlen => if_neg fun hfits => absurd (of_decide_eq_true hfits) (Nat.not_le.mpr hlen)⟩
  have hexec : exec (.frame src tgt cmd index payload ck) s = feedBuf Config.bufCap
      (frameBytes (sealFrame src tgt cmd index ck payload)) s := if_pos (decide_eq_true hlen)
  refine ⟨BitVec.ofNat 8 payload.length, loByte ck, hiByte ck, hexec, ?_, loByte_add_hiByte ck⟩
  rw [BitVec.toNat_ofNat]
  omega

/-- Settles O27: POLL returns the three constants that the three instructions return. -/
theorem pollIsItsExpansion : Obligations.PollIsItsExpansion := fun _ => ⟨_, _, _, rfl, rfl, rfl, rfl⟩

end Sys2Proof.Encoder
end

section
/-!
The Field Decoder's arms: DECODE is the selected arm's instruction (R76, R123), and what each arm's field map holds under
each identifier, read off its words (R130 to R151).
-/
namespace Sys2Proof.FieldDecoder

open Sys2Proof Sys2Proof.Machine Sys2Proof.Safety

/-! ## The gate and the key -/

theorem returnRecord_of_not_wf {fr : Frame} (hwf : ¬ frameWf fr = true) (ok : Bool) (m : FieldMap) (s : State) :
    returnRecord ok fr m s = .refused .illFormedFrame := if_neg hwf

theorem decodeRecord_eq (fr : Frame) : decodeRecord fr = ⟨gatePasses fr, fr, (decodeRecord fr).fields⟩ := by
  rw [decodeRecord]
  cases gatePasses fr <;> rfl

/-- Settles O34: by `decode_of_wf`; the record's frame and flag are the frame's own and its gate's. -/
theorem decodeIsTotalOnWellFormedFrames : Obligations.DecodeIsTotalOnWellFormedFrames := by
  intro fr s
  refine ⟨fun hwf => ⟨gatePasses fr, (decodeRecord fr).fields, ?_, gatePasses_iff fr⟩,
    fun hwf => if_neg (Bool.eq_false_iff.mp hwf)⟩
  rw [← decodeRecord_eq]
  exact decode_of_wf hwf s

/-- Past the gate and under a key, DECODE returns the record of the frame of that key's arm. -/
theorem decode_of_key {fr : Frame} {key : Word} (hwf : frameWf fr = true) (hg : gatePasses fr = true)
    (hkey : dispatchKey fr.cmd fr.index = key) (s : State) :
    exec (.decode fr) s =
      returnRecord true (keyedFrame key fr.src fr.tgt fr.payload) (armFields (armOfKey key) fr.payload) s := by
  rw [keyedFrame_of_wf fr key hwf hg hkey, returnRecord_of_wf hwf, decode_of_wf hwf, decodeRecord_of_gate hg, hkey]

theorem exec_decUnknown {cmd index : Byte} (hkey : ¬ knownKey cmd index) (src tgt : Byte) (payload : List Byte)
    (s : State) :
    exec (.decUnknown src tgt cmd index payload) s = returnRecord true (validFrame src tgt cmd index payload) [] s :=
  if_pos ((armOfKey_eq_unknown_iff cmd index).mpr hkey)

/-- Past the gate and under no known key, DECODE is DEC.UNKNOWN (R157). -/
theorem decode_of_unknown {fr : Frame} (hwf : frameWf fr = true) (hg : gatePasses fr = true)
    (hkey : ¬ knownKey fr.cmd fr.index) (s : State) :
    exec (.decode fr) s = exec (.decUnknown fr.src fr.tgt fr.cmd fr.index fr.payload) s := by
  rw [exec_decUnknown hkey, validFrame_of_wf fr hwf hg, returnRecord_of_wf hwf, decode_of_wf hwf, decodeRecord_of_gate hg,
    armFields_eq_nil fr.payload (.inr hkey)]

/-- Settles O36: each known key's two bytes are the key (`decode_of_key`), and what is left is no known key
(`decode_of_unknown`). -/
theorem decodeIsTheSelectedArm : Obligations.DecodeIsTheSelectedArm := by
  intro fr s hwf hck
  have hg := (gatePasses_iff fr).mpr hck
  split_ifs with hinfo hempty20 hstatus hcells hempty50
  · exact decode_of_key hwf hg ((dispatchKey_eq_iff _ _ Params.keyInfo).mpr hinfo) s
  · exact decode_of_key hwf hg ((dispatchKey_eq_iff _ _ Params.keyEmpty20).mpr hempty20) s
  · exact decode_of_key hwf hg ((dispatchKey_eq_iff _ _ Params.keyStatus).mpr hstatus) s
  · exact decode_of_key hwf hg ((dispatchKey_eq_iff _ _ Params.keyCells).mpr hcells) s
  · exact decode_of_key hwf hg ((dispatchKey_eq_iff _ _ Params.keyEmpty50).mpr hempty50) s
  · refine decode_of_unknown hwf hg ?_ s
    unfold knownKey
    tauto

/-- A payload the length byte cannot count makes no well-formed frame (R24). -/
theorem not_payloadFits {payload : List Byte} (hlen : 255 < payload.length) : ¬ payloadFits payload = true :=
  fun hfits => absurd (of_decide_eq_true hfits) (Nat.not_le.mpr hlen)

theorem exec_decBadck_of_ne {src tgt cmd index : Byte} {received : Word} {payload : List Byte}
    (hne : received ≠ cksum16 ([BitVec.ofNat 8 payload.length, src, tgt, cmd, index] ++ payload)) (s : State) :
    exec (.decBadck src tgt cmd index received payload) s =
      returnRecord false (sealFrame src tgt cmd index received payload) [] s :=
  if_neg (mt (gatePasses_iff _).mp hne)

/-- Settles O37: a long payload fails the one test of `returnRecord`; a frame that selects another arm fails the test
before it. -/
theorem armsRefuseOtherFrames : Obligations.ArmsRefuseOtherFrames := by
  refine ⟨fun src tgt payload s hlen => ?_, fun src tgt cmd index payload s hlen hkey => ?_,
    fun src tgt cmd index received payload s hlen hne => ?_, fun src tgt cmd index payload s hkey => ?_,
    fun src tgt cmd index payload s => ?_⟩
  · have hnot : ∀ key, ¬ frameWf (keyedFrame key src tgt payload) = true :=
      fun key => (keyedFrame_wf key src tgt payload).symm ▸ not_payloadFits hlen
    simp only [List.forall_mem_cons, List.not_mem_nil, false_implies, implies_true, and_true]
    exact ⟨if_neg (hnot _), if_neg (hnot _), if_neg (hnot _), if_neg (hnot _), if_neg (hnot _)⟩
  · exact (exec_decUnknown hkey ..).trans
      (returnRecord_of_not_wf ((validFrame_wf ..).symm ▸ not_payloadFits hlen) ..)
  · exact (exec_decBadck_of_ne hne s).trans
      (returnRecord_of_not_wf ((sealFrame_wf ..).symm ▸ not_payloadFits hlen) ..)
  · exact if_neg fun harm => (armOfKey_eq_unknown_iff cmd index).mp harm hkey
  · exact if_pos ((gatePasses_iff _).mpr rfl)

/-- Settles O46: past the gate the fields are those of the key's arm and the payload (`decodeRecord_of_gate`). -/
theorem addressesDoNotMatterToTheFields : Obligations.AddressesDoNotMatterToTheFields := by
  intro f g s t hf hg hfck hgck hcmd hindex hpayload
  refine ⟨armFields (armOfKey (dispatchKey f.cmd f.index)) f.payload, ?_, ?_⟩
  · rw [decode_of_wf hf, decodeRecord_of_gate ((gatePasses_iff f).mpr hfck)]
  · rw [decode_of_wf hg, decodeRecord_of_gate ((gatePasses_iff g).mpr hgck), hcmd, hindex, hpayload]

/-- An arm past the gate returns the record of its key's frame, as DECODE of that frame does. -/
theorem returnRecord_keyedFrame {payload : List Byte} (hlen : payload.length ≤ 255) (key : Word) (src tgt : Byte)
    (m : FieldMap) (s : State) :
    returnRecord true (keyedFrame key src tgt payload) m s =
      .next { s with results := [.record ⟨true, keyedFrame key src tgt payload, m⟩] } :=
  returnRecord_of_wf ((keyedFrame_wf ..).trans (decide_eq_true hlen)) ..

/-! ## The status fields -/

/-- What DEC.STATUS's field map holds under each identifier (R140 to R145). -/
theorem fieldLookup_statusFields (payload : List Byte) (k : FieldId) :
    fieldLookup (statusFields payload) k =
      match k with
      | .functionFlags => (payloadWords payload)[0]?.map .u
      | .remainingCapacityMah => (payloadWords payload)[1]?.map .u
      | .remainingPercent => (payloadWords payload)[2]?.map .u
      | .currentA => (payloadWords payload)[3]?.map fun v => centi (sext16 v)
      | .voltageV => (payloadWords payload)[4]?.map fun v => centi v.toNat
      | .temp1C => (payloadWords payload)[5]?.map fun v => .s (biased (loByte v))
      | .temp2C => (payloadWords payload)[5]?.map fun v => .s (biased (hiByte v))
      | .balanceStatus => (payloadWords payload)[6]?.map .u
      | .dischargeOvercurrentState => (payloadWords payload)[7]?.map .u
      | .chargeOvercurrentState => (payloadWords payload)[8]?.map .u
      | .coulombCapacity => (payloadWords payload)[9]?.map .u
      | .voltageCapacity => (payloadWords payload)[10]?.map .u
      | .healthPercent => (payloadWords payload)[11]?.map .u
      | .reserved =>
        if ((payloadWords payload).drop 12).take 4 ≠ [] then some (.raw (((payloadWords payload).drop 12).take 4))
        else none
      | _ => none := by
  simp only [statusFields, fieldLookup_append, fieldLookup_wordField, fieldLookup_rawField]
  cases k <;> simp

/-- Settles O39: each field is `fieldLookup_statusFields` at its identifier, its word read as a number; the signed
current and the biased bytes are those of that number. -/
theorem statusFieldValues : Obligations.StatusFieldValues := by
  intro src tgt payload s hlen
  refine ⟨keyedFrame Params.keyStatus src tgt payload, statusFields payload, returnRecord_keyedFrame hlen ..,
    decode_keyedFrame _ src tgt (decide_eq_true hlen) s, rfl, rfl, rfl, rfl, rfl, ?_, ?_, ?_, ?_, ?_⟩
  · simp [fieldLookup_statusFields, payloadWords_map_u]
  · exact (fieldLookup_statusFields payload .currentA).trans (payloadWords_map_toNat payload 3
      fun n => FieldValue.fx ⟨if n < 32768 then (n : Int) else (n : Int) - 65536, 2⟩)
  · exact (fieldLookup_statusFields payload .voltageV).trans (payloadWords_map_toNat payload 4 fun n => centi n)
  · rw [fieldLookup_statusFields, ← payloadWords_map_toNat]
    simp only [biased, loByte_toNat]
  · rw [fieldLookup_statusFields, ← payloadWords_map_toNat]
    simp only [biased, hiByte_toNat]

/-! ## The texts of the info arm -/

/-- A text's character has the byte's own code when that is an ASCII code, and the placeholder's otherwise (R75). -/
theorem charCode_asciiOrRepl (b : Byte) :
    charCode (asciiOrRepl b) = if b.toNat ≤ 0x7F then b.toNat else Config.replacement := by
  simp only [asciiOrRepl, Params.asciiMax]
  split
  · rw [charCode, BitVec.toNat_setWidth]
    omega
  · rfl

/-- The decimal numeral of a nibble (D17) is the usual one. -/
theorem charCodes_decimal {n : Nat} (h : n < 16) : (decimal n).map charCode = (toString n).toList.map Char.toNat := by
  revert n
  decide

/-- The firmware version's characters, most significant nibble first (R132). -/
theorem charCodes_renderVersion (v : Word) :
    (renderVersion v).map charCode = (toString (v.toNat / 4096) ++ "." ++ toString (v.toNat / 256 % 16) ++ "." ++
      toString (v.toNat / 16 % 16) ++ "." ++ toString (v.toNat % 16)).toList.map Char.toNat := by
  have hnibble : ∀ k, nibble v k < 16 := fun k => Nat.mod_lt _ (by decide)
  have hdot : charCode fullStop = 46 := rfl
  have htop : nibble v 3 = v.toNat / 4096 := Nat.mod_eq_of_lt (by have := v.isLt; omega)
  have hmid : nibble v 2 = v.toNat / 256 % 16 ∧ nibble v 1 = v.toNat / 16 % 16 := ⟨rfl, rfl⟩
  have hlow : nibble v 0 = v.toNat % 16 := by simp [nibble]
  have hdots : ".".toList.map Char.toNat = [46] := by decide
  simp only [renderVersion, List.map_append, List.map_cons, charCodes_decimal (hnibble _), hdot]
  simp only [htop, hmid, hlow, String.toList_append, List.map_append, hdots, List.append_assoc, List.cons_append,
    List.nil_append]

/-- A word is there exactly when the payload is long enough for both its bytes (R125). -/
theorem payloadWords_isSome_iff (payload : List Byte) (k : Nat) :
    (payloadWords payload)[k]?.isSome = true ↔ 2 * k + 2 ≤ payload.length := by
  rw [isSome_getElem?, payloadWords_length]
  omega

/-- The number of a word that is there. -/
theorem exists_word_of_wordOf {payload : List Byte} {k n : Nat} (h : wordOf payload k = some n) :
    ∃ v, (payloadWords payload)[k]? = some v ∧ v.toNat = n :=
  Option.map_eq_some_iff.mp ((payloadWords_getElem? payload k).trans h)

/-- Settles O41: the serial number is the bytes' characters one by one (`charCode_asciiOrRepl`), the version the four
nibbles' numerals (`charCodes_renderVersion`). -/
theorem infoTextFieldValues : Obligations.InfoTextFieldValues := by
  intro src tgt payload s hlen
  refine ⟨keyedFrame Params.keyInfo src tgt payload, infoFields payload, (payload.take 14).map asciiOrRepl,
    returnRecord_keyedFrame hlen .., fieldLookup_infoFields payload .serial, ?_, ?_, ?_, fun n hn => ?_⟩
  · rw [List.map_map]
    exact List.map_congr_left fun b _ => charCode_asciiOrRepl b
  · unfold Config.replacement
    omega
  · have hword := payloadWords_isSome_iff payload 7
    rw [fieldLookup_infoFields, Option.map_eq_none_iff, ← Option.not_isSome_iff_eq_none, hword]
    omega
  · obtain ⟨v, hv, rfl⟩ := exists_word_of_wordOf hn
    exact ⟨renderVersion v, by rw [fieldLookup_infoFields, hv]; rfl, charCodes_renderVersion v⟩

/-! ## The raw words behind a layout -/

/-- The words `first` to `first + count - 1` of a payload, as many of them as there are (R135, R145, D16). -/
def wordsFrom (payload : List Byte) (first count : Nat) : List Word := ((payloadWords payload).drop first).take count

theorem wordsFrom_length (payload : List Byte) (first count : Nat) :
    (wordsFrom payload first count).length = min (first + count) (payload.length / 2) - first := by
  rw [wordsFrom, List.length_take, List.length_drop, payloadWords_length]
  omega

theorem wordsFrom_getElem? {payload : List Byte} {first count k : Nat} (h : k < (wordsFrom payload first count).length) :
    (wordsFrom payload first count)[k]?.map BitVec.toNat = wordOf payload (first + k) := by
  have hk : k < count := by
    rw [wordsFrom_length] at h
    omega
  rw [wordsFrom, List.getElem?_take_of_lt hk, List.getElem?_drop, payloadWords_getElem?]

theorem wordsFrom_eq_nil_iff {payload : List Byte} {first count : Nat} (hcount : 0 < count) :
    wordsFrom payload first count = [] ↔ payload.length < 2 * first + 2 := by
  rw [← List.length_eq_zero_iff, wordsFrom_length]
  omega

/-- A raw field is omitted below its first word's bytes, and holds the words there are above (D16). -/
theorem rawField_values {payload : List Byte} {first count : Nat} (hcount : 0 < count) {found : Option FieldValue}
    (hfound : found = if wordsFrom payload first count ≠ [] then some (.raw (wordsFrom payload first count)) else none) :
    (payload.length < 2 * first + 2 → found = none) ∧
    (2 * first + 2 ≤ payload.length → ∃ ws, found = some (.raw ws) ∧
      ws.length = min (first + count) (payload.length / 2) - first ∧
      ∀ k < ws.length, ws[k]?.map BitVec.toNat = wordOf payload (first + k)) := by
  refine ⟨fun hshort => ?_, fun hlong => ⟨wordsFrom payload first count, ?_, wordsFrom_length .., fun k hk =>
    wordsFrom_getElem? hk⟩⟩
  · rw [hfound, if_neg (not_not.mpr ((wordsFrom_eq_nil_iff hcount).mpr hshort))]
  · rw [hfound, if_pos (mt (wordsFrom_eq_nil_iff hcount).mp (Nat.not_lt.mpr hlong))]

/-- Settles O42: both raw fields are `rawField_values`, three words from word 13 on and four from word 12 on. -/
theorem rawTailFields : Obligations.RawTailFields := by
  intro src tgt payload s hlen
  obtain ⟨hinfoShort, hinfoLong⟩ := rawField_values (first := 13) (count := 3) (by decide)
    (fieldLookup_infoFields payload .rawTail)
  obtain ⟨hstatusShort, hstatusLong⟩ := rawField_values (first := 12) (count := 4) (by decide)
    (fieldLookup_statusFields payload .reserved)
  exact ⟨_, _, infoFields payload, statusFields payload, returnRecord_keyedFrame hlen Params.keyInfo ..,
    returnRecord_keyedFrame hlen Params.keyStatus .., hinfoShort, hinfoLong, hstatusShort, hstatusLong⟩

/-! ## The cell map -/

/-- A cell map of words numbered from `n` on holds, under each number, the voltage of its word, if that word is there and
is not the absent mark (R150, R151). -/
theorem mem_cellMap_iff (ws : List Word) (n m : Nat) (x : Fixed) :
    (m, x) ∈ cellMap n ws ↔ n ≤ m ∧ ∃ w, ws[m - n]? = some w ∧ w ≠ Params.cellAbsent ∧ x = milli w.toNat := by
  induction ws generalizing n with
  | nil => simp [cellMap]
  | cons v ws ih =>
    have htail : (m, x) ∈ cellMap (n + 1) ws ↔ n < m ∧ ∃ w, (v :: ws)[m - n]? = some w ∧ w ≠ Params.cellAbsent ∧
        x = milli w.toNat := by
      rw [ih]
      refine and_congr_right fun hlt => ?_
      rw [show m - n = m - (n + 1) + 1 by omega, List.getElem?_cons_succ]
    have hhead : (n ≤ m ∧ ∃ w, (v :: ws)[m - n]? = some w ∧ w ≠ Params.cellAbsent ∧ x = milli w.toNat) ↔
        (m = n ∧ v ≠ Params.cellAbsent ∧ x = milli v.toNat) ∨ (m, x) ∈ cellMap (n + 1) ws := by
      rw [htail]
      rcases Nat.lt_trichotomy n m with hlt | rfl | hlt
      · simp [hlt.le, hlt, hlt.ne']
      · simp
      · simp [hlt.not_ge, hlt.ne, hlt.not_gt]
    rw [hhead, cellMap]
    split
    · next habsent => simp [habsent]
    · next hpresent => simp [hpresent]

/-- Cell numbers rise strictly (R150). -/
theorem pairwise_cellMap (ws : List Word) (n : Nat) : ((cellMap n ws).map Prod.fst).Pairwise (· < ·) := by
  induction ws generalizing n with
  | nil => exact .nil
  | cons w ws ih =>
    rw [cellMap]
    split
    · exact ih (n + 1)
    · refine .cons (fun m hm => ?_) (ih (n + 1))
      obtain ⟨⟨m, x⟩, hmem, rfl⟩ := List.mem_map.mp hm
      exact ((mem_cellMap_iff ..).mp hmem).1

/-- The cells of a payload: numbers 1 to 10, each the thousandth of its word (R150, R151). -/
theorem mem_cells_iff (payload : List Byte) (n : Nat) (x : Fixed) :
    (n, x) ∈ cellMap 1 ((payloadWords payload).take Params.nCells) ↔
      1 ≤ n ∧ n ≤ 10 ∧ ∃ w, wordOf payload (n - 1) = some w ∧ w ≠ 0xFFFF ∧ x = ⟨(w : Int), 3⟩ := by
  rw [mem_cellMap_iff]
  refine and_congr_right fun hn => ⟨?_, ?_⟩
  · rintro ⟨v, hv, hpresent, rfl⟩
    obtain ⟨hlt, hword⟩ : n - 1 < 10 ∧ (payloadWords payload)[n - 1]? = some v := by
      rw [List.getElem?_take] at hv
      split at hv
      · next hlt => exact ⟨hlt, hv⟩
      · cases hv
    refine ⟨by omega, v.toNat, by rw [← payloadWords_getElem?, hword]; rfl, fun heq => hpresent ?_, rfl⟩
    exact BitVec.eq_of_toNat_eq heq
  · rintro ⟨hle, w, hw, hpresent, rfl⟩
    obtain ⟨v, hv, rfl⟩ := exists_word_of_wordOf hw
    have hlt : n - 1 < Params.nCells := by
      simp only [Params.nCells]
      omega
    exact ⟨v, by rw [List.getElem?_take_of_lt hlt, hv], fun heq => hpresent (by rw [heq]; rfl), rfl⟩

/-- Settles O43: DEC.CELLS's one field is the payload's cell map (`mem_cells_iff`, `pairwise_cellMap`). -/
theorem cellFieldValues : Obligations.CellFieldValues := by
  intro src tgt payload s hlen
  exact ⟨keyedFrame Params.keyCells src tgt payload, cellMap 1 ((payloadWords payload).take Params.nCells),
    returnRecord_keyedFrame hlen .., decode_keyedFrame _ src tgt (decide_eq_true hlen) s, rfl, rfl, rfl, rfl, rfl,
    mem_cells_iff payload, pairwise_cellMap ..⟩

/-! ## Which fields are there -/

/-- A good record of DECODE holds the fields of the arm its key selects. -/
theorem fields_of_decode {fr : Frame} {s : State} {m : FieldMap} (hwf : frameWf fr = true)
    (h : exec (.decode fr) s = .next { s with results := [.record ⟨true, fr, m⟩] }) :
    m = armFields (armOfKey (dispatchKey fr.cmd fr.index)) fr.payload := by
  rw [decode_of_wf hwf] at h
  have hrecord : decodeRecord fr = ⟨true, fr, m⟩ := by simpa using h
  have hg : gatePasses fr = true := by rw [← decodeRecord_checksumOk, hrecord]
  rw [decodeRecord_of_gate hg] at hrecord
  exact (congrArg DecodedRecord.fields hrecord).symm

/-- Settles O44: a word-backed field is there exactly when its word is, and a word exactly when the payload holds both
its bytes (`payloadWords_isSome_iff`); a well-formed frame's length counts its payload. -/
theorem fieldsAreOmittedOneByOne : Obligations.FieldsAreOmittedOneByOne := by
  intro fr s m hwf hdecode
  rw [← ((frameWf_iff fr).mp hwf).1]
  obtain rfl := fields_of_decode hwf hdecode
  refine ⟨fun hkey => ?_, fun hkey => ?_, fun hkey cm n x hcells hmem => ?_⟩
  · rw [(dispatchKey_eq_iff _ _ Params.keyInfo).mpr hkey]
    have hinfo : armFields (armOfKey Params.keyInfo) fr.payload = infoFields fr.payload := rfl
    simp only [hinfo, List.forall_mem_cons, fieldLookup_infoFields, Option.isSome_map, payloadWords_isSome_iff]
    simp
  · rw [(dispatchKey_eq_iff _ _ Params.keyStatus).mpr hkey]
    have hstatus : armFields (armOfKey Params.keyStatus) fr.payload = statusFields fr.payload := rfl
    simp only [hstatus, List.forall_mem_cons, fieldLookup_statusFields, Option.isSome_map, payloadWords_isSome_iff]
    simp
  · rw [(dispatchKey_eq_iff _ _ Params.keyCells).mpr hkey] at hcells
    cases hcells
    obtain ⟨-, -, w, hw, -⟩ := (mem_cells_iff ..).mp hmem
    obtain ⟨v, hv, -⟩ := exists_word_of_wordOf hw
    exact (payloadWords_isSome_iff ..).mp (Option.isSome_of_eq_some hv)

/-- An identifier that stands in a map is found there. -/
theorem fieldLookup_ne_none_of_mem {m : FieldMap} {e : FieldId × FieldValue} (h : e ∈ m) : fieldLookup m e.1 ≠ none := by
  induction m with
  | nil => cases h
  | cons e' m ih =>
    rw [fieldLookup]
    split
    · simp
    · next hne =>
      rcases List.mem_cons.mp h with rfl | h
      · exact absurd rfl hne
      · exact ih h

/-- The info layout gives identifiers of the info arm only (R124). -/
theorem indexOfField_of_mem_infoFields {payload : List Byte} {e : FieldId × FieldValue} (h : e ∈ infoFields payload) :
    indexOfField e.1 = 0x10 := by
  have hfound := fieldLookup_ne_none_of_mem h
  rw [fieldLookup_infoFields] at hfound
  revert hfound
  cases e.1 <;> simp [indexOfField]

/-- The status layout gives identifiers of the status arm only (R124). -/
theorem indexOfField_of_mem_statusFields {payload : List Byte} {e : FieldId × FieldValue}
    (h : e ∈ statusFields payload) : indexOfField e.1 = 0x30 := by
  have hfound := fieldLookup_ne_none_of_mem h
  rw [fieldLookup_statusFields] at hfound
  revert hfound
  cases e.1 <;> simp [indexOfField]

/-- The fields of a key's arm stand under that key only (R123, R124). -/
theorem key_of_mem_armFields {cmd index : Byte} {payload : List Byte} {e : FieldId × FieldValue}
    (h : e ∈ armFields (armOfKey (dispatchKey cmd index)) payload) : cmd = 0x04 ∧ index = indexOfField e.1 := by
  by_cases hkey : knownKey cmd index
  · obtain ⟨rfl, rfl | rfl | rfl | rfl | rfl⟩ := hkey
    · exact ⟨rfl, (indexOfField_of_mem_infoFields h).symm⟩
    · cases h
    · exact ⟨rfl, (indexOfField_of_mem_statusFields h).symm⟩
    · obtain rfl := List.mem_singleton.mp h
      exact ⟨rfl, rfl⟩
    · cases h
  · rw [armFields_eq_nil payload (.inr hkey)] at h
    cases h

/-- Settles O45: DECODE's record is well formed (`decodeRecord_wf`), and its fields are those of the key's arm
(`key_of_mem_armFields`) or none. -/
theorem decodedRecordsAreWellFormed : Obligations.DecodedRecordsAreWellFormed := by
  intro fr s hwf
  refine ⟨decodeRecord fr, decode_of_wf hwf s, decodeRecord_wf fr hwf, fun e he => ?_⟩
  by_cases hck : fr.checksumReceived = fr.checksumComputed
  · rw [decodeRecord_of_gate ((gatePasses_iff fr).mpr hck)] at he
    exact key_of_mem_armFields he
  · rw [decodeRecord_of_ne hck] at he
    cases he

end Sys2Proof.FieldDecoder
end

section
/-!
The Snapshot Model's SNAP.APPLY of a good record (R172), the merge done twice (R175), SNAP.READ (R173), and the state RESET
leaves (R200).
-/
namespace Sys2Proof.Snapshot

open Sys2Proof Sys2Proof.Machine

/-- Settles O48: the marker is cleared, and the merge reads as `fieldLookup_merge` says. -/
theorem goodRecordMergesItsFields : Obligations.GoodRecordMergesItsFields := by
  intro r s hok hcanonical
  refine ⟨fieldMerge s.snapFields r.fields, ?_, fun k => fieldLookup_merge s.snapFields r.fields k hcanonical⟩
  have hexec : exec (.snapApply r) s = .next ((s.setSnap
      (if r.checksumOk then fieldMerge s.snapFields r.fields else s.snapFields) (errAfter r)).returning []) := rfl
  have herr : errAfter r = none := if_pos hok
  rw [hexec, if_pos hok, herr]
  rfl

/-- Merging a record's fields once more changes nothing: both maps are canonical and read alike. -/
theorem fieldMerge_idem {m new : FieldMap} (hm : fieldMapCanonical m = true) (hnew : fieldMapCanonical new = true) :
    fieldMerge (fieldMerge m new) new = fieldMerge m new := by
  refine canonical_ext (canonical_merge _ _ (canonical_merge _ _ hm)) (canonical_merge _ _ hm) fun k => ?_
  rw [fieldLookup_merge _ _ _ hnew, fieldLookup_merge _ _ _ hnew]
  cases fieldLookup new k <;> rfl

/-- Settles O49: a second merge changes nothing (`fieldMerge_idem`), and the marker depends on the record alone. -/
theorem applyIsIdempotent : Obligations.ApplyIsIdempotent := by
  intro r s t hr hs h
  cases h
  have hfields : (applyRecord (applyRecord s r) r).snapFields = (applyRecord s r).snapFields := by
    simp only [applyRecord_snapFields]
    split
    · exact fieldMerge_idem hs hr
    · rfl
  have hexec : exec (.snapApply r) ((applyRecord s r).returning []) =
      .next { applyRecord s r with
        snapFields := (applyRecord (applyRecord s r) r).snapFields, results := [] } := rfl
  rw [hexec, hfields]
  rfl

/-- Settles O51: SNAP.READ returns both parts and writes the result ports only. -/
theorem snapReadReturnsBothParts : Obligations.SnapReadReturnsBothParts := fun _ => rfl

/-- Settles O52: RESET writes the three items and clears the result ports. -/
theorem resetEmptiesTheCore : Obligations.ResetEmptiesTheCore := fun _ => rfl

/-- Settles O53: by the state's own lemmas at reset. -/
theorem stateAfterReset : Obligations.StateAfterReset :=
  ⟨State.reset_buf, State.reset_snapFields, State.reset_snapErr, State.reset_results, State.reset_calls⟩

/-- Settles O54: the four codes have no other outcome. -/
theorem reservedCodesAreRefused : Obligations.ReservedCodesAreRefused := fun _ => ⟨rfl, rfl, rfl, rfl⟩

end Sys2Proof.Snapshot
end

section
/-!
The Frame Synchronizer: FEED and its capacity (R100, D2), EXTRACT's ways to wait, to discard and to skip a lead-in (R103 to
R108), what it leaves (R113), and the split marker it loses (R205).
-/
namespace Sys2Proof.Synchronizer

open Sys2Proof Sys2Proof.Machine Sys2Proof.Safety

/-! ## FEED -/

theorem exec_feed (data : List Byte) (s : State) :
    exec (.feed data) s = .next { s with buf := s.buf ++ data, results := [] } := rfl

/-- Settles O12: FEED appends (`exec_feed`), and appending is associative with the empty sequence as its unit. -/
theorem feedAppends : Obligations.FeedAppends := by
  refine ⟨exec_feed, fun a b s t h => ?_, fun s t h => ?_⟩
  · cases h
    rw [exec_feed, exec_feed, ← List.append_assoc]
    rfl
  · cases h
    exact List.append_nil s.buf

/-- Settles O13: a finite capacity is the guard of the append. -/
theorem finiteCapacityRefusesOverflow : Obligations.FiniteCapacityRefusesOverflow := by
  intro cap data s
  exact ⟨fun hfits => if_pos (decide_eq_true hfits),
    fun hover => if_neg fun hadmits => absurd (of_decide_eq_true hadmits) (Nat.not_le.mpr hover)⟩

/-! ## The cut and the search -/

/-- R105 and R107: without a length byte, or below the size it asks for, the cut waits. -/
theorem cutFrame_of_partial {b : List Byte} (h : ∀ len, b[2]? = some len → b.length < totalSize len) :
    cutFrame b = (none, b) := by
  unfold cutFrame
  split
  · rfl
  · next len hlen => exact if_pos (h len hlen)

/-- No frame has fewer than nine bytes (R63). -/
theorem cutFrame_of_short {b : List Byte} (h : b.length < 9) : cutFrame b = (none, b) :=
  cutFrame_of_partial fun len _ => by simp only [totalSize, Params.hdrSize, Params.trlSize]; omega

/-- R103: without a marker all is discarded. -/
theorem extractBuf_of_noise {b : List Byte} (h9 : 9 ≤ b.length) (hnone : ∀ i, ¬ markerAt b i) :
    extractBuf b = (none, []) := by
  rw [extractBuf, if_neg (Nat.not_lt.mpr h9), (findMarker_none_iff b).mpr hnone]

/-- R104: behind the first marker the cut decides. -/
theorem extractBuf_of_findMarker {b : List Byte} {p : Nat} (h9 : 9 ≤ b.length) (hp : findMarker b = some p) :
    extractBuf b = cutFrame (b.drop p) := by
  rw [extractBuf, if_neg (Nat.not_lt.mpr h9), hp]

/-- R112: the lead-in makes no other difference than its own loss. -/
theorem extractBuf_drop_leadIn {b : List Byte} {p : Nat} (h9 : 9 ≤ b.length) (hp : findMarker b = some p) :
    extractBuf b = extractBuf (b.drop p) := by
  rw [extractBuf_of_findMarker h9 hp]
  by_cases hshort : (b.drop p).length < 9
  · rw [cutFrame_of_short hshort, extractBuf_of_short hshort]
  · obtain ⟨tail, htail⟩ := drop_of_findMarker hp
    have hfront : findMarker (b.drop p) = some 0 := by rw [htail, findMarker_front]
    rw [extractBuf_of_findMarker (Nat.not_lt.mp hshort) hfront, List.drop_zero]

/-! ## EXTRACT -/

/-- What EXTRACT returned and left is what its buffer operation gave. -/
theorem extractBuf_of_extract {s t : State} {fr : Option Frame} (h : exec .extract s = .next t)
    (hresults : t.results = [.extracted fr]) : extractBuf s.buf = (fr, t.buf) := by
  cases h
  have hfr : (extractBuf s.buf).1 = fr := by simpa using hresults
  rw [← hfr]
  rfl

/-- Settles O15: by `extractBuf_of_noise`. -/
theorem extractDiscardsNoise : Obligations.ExtractDiscardsNoise :=
  fun _ h9 hnone => extract_eq_of_extractBuf (extractBuf_of_noise h9 hnone)

/-- Settles O16: the search finds the marker at `p`, and the cut behind it waits (`cutFrame_of_partial`). -/
theorem extractWaitsForAPartialFrame : Obligations.ExtractWaitsForAPartialFrame := by
  intro s p h9 hmarker hfirst hpartial
  have hp := (findMarker_some_iff s.buf p).mpr ⟨hmarker, hfirst⟩
  refine extract_eq_of_extractBuf ((extractBuf_of_findMarker h9 hp).trans (cutFrame_of_partial fun len hlen => ?_))
  rw [List.getElem?_drop] at hlen
  have hlt := (List.getElem?_eq_some_iff.mp hlen).1
  rw [List.length_drop]
  simp only [totalSize, Params.hdrSize, Params.trlSize]
  rcases hpartial with hshort | ⟨len', hlen', hshort⟩
  · omega
  · obtain rfl : len' = len := by simpa using hlen'.symm.trans hlen
    omega

/-- Settles O17: by `extractBuf_drop_leadIn`. -/
theorem extractSkipsLeadIn : Obligations.ExtractSkipsLeadIn := by
  intro s p h9 hmarker hfirst
  have hp := (findMarker_some_iff s.buf p).mpr ⟨hmarker, hfirst⟩
  rw [extract_eq_of_extractBuf (extractBuf_drop_leadIn h9 hp)]
  rfl

/-- Settles O19: by `extractBuf_some`; the bytes in front of the frame are those before the first marker. -/
theorem extractedFrameWasInTheBuffer : Obligations.ExtractedFrameWasInTheBuffer := by
  intro s t f h hresults
  obtain ⟨hwf, p, hp, hbuf⟩ := extractBuf_some (extractBuf_of_extract h hresults)
  refine ⟨hwf, s.buf.take p, hbuf, fun j hj => ?_⟩
  exact ((findMarker_some_iff s.buf p).mp hp).2 j (hj.trans_le (List.length_take_le ..))

/-- R33: the four shapes of what an EXTRACT leaves that returned `None`. -/
theorem extractBuf_none_shape {b b' : List Byte} (h : extractBuf b = (none, b')) :
    (b.length ≤ 8 ∧ b' = b) ∨ b' = [] ∨ b' = [0x5A, 0xA5] ∨
      ∃ (len : Byte) (more : List Byte), b' = [0x5A, 0xA5, len] ++ more ∧ b'.length < 9 + len.toNat := by
  rcases extractBuf_cases b with ⟨hshort, hcut⟩ | ⟨-, -, hcut⟩ | ⟨-, p, -, -, hcut⟩ |
    ⟨-, p, len, more, -, hdrop, hpartial, hcut⟩ | ⟨-, p, fr, rest, -, -, -, hcut⟩
  · cases hcut.symm.trans h
    exact .inl ⟨Nat.le_of_lt_succ hshort, rfl⟩
  · cases hcut.symm.trans h
    exact .inr (.inl rfl)
  · cases hcut.symm.trans h
    exact .inr (.inr (.inl rfl))
  · cases hcut.symm.trans h
    refine .inr (.inr (.inr ⟨len, more, hdrop, ?_⟩))
    rw [hdrop]
    simp only [List.length_cons]
    omega
  · cases hcut.symm.trans h

/-- R113: at most 263 bytes are left. -/
theorem extractBuf_none_length {b b' : List Byte} (h : extractBuf b = (none, b')) : b'.length ≤ 263 := by
  rcases extractBuf_none_shape h with ⟨hshort, rfl⟩ | rfl | rfl | ⟨len, more, -, hpartial⟩
  · omega
  · simp
  · simp
  · have := len.isLt
    omega

/-- Settles O20: by `extractBuf_none_length` and `extractBuf_none_shape`. -/
theorem extractNoneBoundsTheBuffer : Obligations.ExtractNoneBoundsTheBuffer := by
  intro s t h hresults
  have hcut := extractBuf_of_extract h hresults
  exact ⟨extractBuf_none_length hcut, extractBuf_none_shape hcut⟩

/-- Settles O21: by `extractBuf_wait`; the result ports hold `None` already. -/
theorem extractWaitIsStable : Obligations.ExtractWaitIsStable := by
  intro s t h hresults
  rw [extract_eq_of_extractBuf (extractBuf_wait (extractBuf_of_extract h hresults)), ← hresults]

/-- Settles O22: the buffer is noise of nine bytes or more, so all of it goes (`extractBuf_of_noise`). -/
theorem splitMarkerIsLost : Obligations.SplitMarkerIsLost := by
  intro s noise rest hbuf hlen hnone
  have h9 : 9 ≤ s.buf.length := by
    rw [hbuf, List.length_append, List.length_singleton]
    omega
  exact ⟨_, extract_eq_of_extractBuf (extractBuf_of_noise h9 hnone), rfl, rfl, rfl⟩

end Sys2Proof.Synchronizer
end

section
/-!
DRAIN and PUMP as runs of the operations they stand for (R82), and chunking (R114): draining after every chunk and once at
the end give the same frames. A drain of a longer buffer first returns the frames of its front; then it goes on as from what
the front's drain left, because what that drain dropped is a lead-in without a marker of its own.
-/
namespace Sys2Proof.Drain

open Sys2Proof Sys2Proof.Machine Sys2Proof.Safety Sys2Proof.Synchronizer

/-! ## DRAIN and PUMP -/

/-- As many EXTRACTs as a drain returns frames, and one, return what the drain returns and leave what it leaves. -/
theorem extractTimes_drain (s : State) :
    extractTimes ((drainBuf s.buf).1.length + 1) s =
      some (drainResults (drainBuf s.buf).1, { s with buf := (drainBuf s.buf).2, results := [.extracted none] }) := by
  induction h : s.buf using drainBuf_induct generalizing s with
  | none b b' hcut =>
    subst h
    rw [drainBuf_none hcut]
    simp [extractTimes, extract_eq_of_extractBuf hcut, drainResults]
  | some b b' f hcut ih =>
    subst h
    have hrest := ih { s with buf := b', results := [.extracted (some f)] } rfl
    rw [drainBuf_some hcut, List.length_cons, extractTimes, extract_eq_of_extractBuf hcut]
    simp [hrest, drainResults]

/-- R113: a drain ends in an EXTRACT that returned `None`. -/
theorem drainBuf_length (b : List Byte) : (drainBuf b).2.length ≤ 263 := by
  induction b using drainBuf_induct with
  | none b b' h =>
    rw [drainBuf_none h]
    exact extractBuf_none_length h
  | some b b' f h ih =>
    rw [drainBuf_some h]
    exact ih

/-- Settles O25: the EXTRACTs of `extractTimes_drain` and the bound of `drainBuf_length`. -/
theorem drainRepeatsExtract : Obligations.DrainRepeatsExtract := by
  intro s
  exact ⟨(drainBuf s.buf).1, _, rfl, rfl, ⟨_, extractTimes_drain s, rfl⟩, drainBuf_length s.buf⟩

/-- DECODE and SNAP.APPLY of well-formed frames one after another apply their records in order. -/
theorem decodeApply_of_wf {fs : List Frame} (hwf : ∀ f ∈ fs, frameWf f = true) (s : State) :
    ∃ rs, decodeApply fs s =
      some (fs.map decodeRecord, ((fs.map decodeRecord).foldl applyRecord s).returning rs) := by
  induction fs generalizing s with
  | nil => exact ⟨s.results, rfl⟩
  | cons f fs ih =>
    obtain ⟨rs, hrest⟩ := ih (fun g hg => hwf g (List.mem_cons_of_mem _ hg)) ((applyRecord s (decodeRecord f)).returning [])
    have happly : exec (.snapApply (decodeRecord f)) { s with results := [.record (decodeRecord f)] } =
        .next ((applyRecord s (decodeRecord f)).returning []) := rfl
    rw [Effects.applyRecords_returning] at hrest
    refine ⟨rs, ?_⟩
    simp only [decodeApply, FieldDecoder.decode_of_wf (hwf f List.mem_cons_self), happly, hrest, Option.map_some,
      List.map_cons, List.foldl_cons]
    rfl

/-- Settles O26: FEED and DRAIN leave the drained buffer, `decodeApply_of_wf` applies its frames' records, and `exec_pump`
says that PUMP does the same. -/
theorem pumpIsItsExpansion : Obligations.PumpIsItsExpansion := by
  intro data s
  have hframes := drainBuf_wf (s.buf ++ data)
  obtain ⟨rs, happly⟩ := decodeApply_of_wf hframes
    ((s.setBuf (drainBuf (s.buf ++ data)).2).returning (drainResults (drainBuf (s.buf ++ data)).1))
  refine ⟨_, _, _, _, _, rfl, rfl, rfl, happly, ?_⟩
  rw [Effects.exec_pump, Effects.applyRecords_returning]
  rfl

/-! ## A drain of a longer buffer -/

theorem markerAt_append_left {b : List Byte} {j : Nat} (h : j + 1 < b.length) (x : List Byte) :
    markerAt (b ++ x) j ↔ markerAt b j := by
  rw [markerAt, markerAt, List.getElem?_append_left (Nat.lt_of_succ_lt h), List.getElem?_append_left h]

theorem markerAt_append_right (b x : List Byte) (i : Nat) : markerAt (b ++ x) (b.length + i) ↔ markerAt x i := by
  simp [markerAt, Nat.add_assoc, List.getElem?_append_right]

/-- Behind a lead-in in which no marker starts, the search goes on as in what follows. -/
theorem findMarker_append {l y : List Byte} (h : ∀ j < l.length, ¬ markerAt (l ++ y) j) :
    findMarker (l ++ y) = (findMarker y).map (l.length + ·) := by
  cases hy : findMarker y with
  | none =>
    refine (findMarker_none_iff _).mpr fun i => ?_
    by_cases hi : i < l.length
    · exact h i hi
    · obtain ⟨k, rfl⟩ := Nat.exists_eq_add_of_le (Nat.not_lt.mp hi)
      rw [markerAt_append_right]
      exact (findMarker_none_iff y).mp hy k
  | some q =>
    obtain ⟨hmarker, hfirst⟩ := (findMarker_some_iff y q).mp hy
    refine (findMarker_some_iff _ _).mpr ⟨(markerAt_append_right ..).mpr hmarker, fun j hj => ?_⟩
    by_cases hl : j < l.length
    · exact h j hl
    · obtain ⟨k, rfl⟩ := Nat.exists_eq_add_of_le (Nat.not_lt.mp hl)
      rw [markerAt_append_right]
      exact hfirst k (Nat.lt_of_add_lt_add_left hj)

/-- Such a lead-in makes no difference to one EXTRACT of a buffer long enough without it (R112). -/
theorem extractBuf_append_leadIn {l y : List Byte} (h : ∀ j < l.length, ¬ markerAt (l ++ y) j) (h9 : 9 ≤ y.length) :
    extractBuf (l ++ y) = extractBuf y := by
  have hlong : 9 ≤ (l ++ y).length := by
    rw [List.length_append]
    omega
  have hfind := findMarker_append h
  cases hy : findMarker y with
  | none =>
    rw [hy] at hfind
    rw [extractBuf_of_noise hlong ((findMarker_none_iff _).mp hfind),
      extractBuf_of_noise h9 ((findMarker_none_iff _).mp hy)]
  | some q =>
    rw [hy] at hfind
    rw [extractBuf_of_findMarker hlong hfind, extractBuf_of_findMarker h9 hy, List.drop_length_add_append]

/-- Behind such a lead-in a buffer too short for a frame gives none. -/
theorem extractBuf_append_short {l y : List Byte} (h : ∀ j < l.length, ¬ markerAt (l ++ y) j) (hshort : y.length < 9) :
    (extractBuf (l ++ y)).1 = none := by
  by_cases hlong : 9 ≤ (l ++ y).length
  · have hfind := findMarker_append h
    cases hy : findMarker y with
    | none =>
      rw [hy] at hfind
      rw [extractBuf_of_noise hlong ((findMarker_none_iff _).mp hfind)]
    | some q =>
      rw [hy] at hfind
      rw [extractBuf_of_findMarker hlong hfind, List.drop_length_add_append, cutFrame_of_short]
      rw [List.length_drop]
      omega
  · rw [extractBuf_of_short (Nat.not_le.mp hlong)]

/-- A drain whose first EXTRACT returns no frame returns none. -/
theorem drainBuf_frames_of_none {b : List Byte} (h : (extractBuf b).1 = none) : (drainBuf b).1 = [] := by
  rw [drainBuf_none (Prod.ext h rfl)]

/-- A drain depends on what its first EXTRACT gives. -/
theorem drainBuf_congr {b c : List Byte} (h : extractBuf b = extractBuf c) : drainBuf b = drainBuf c := by
  rcases hc : extractBuf c with ⟨_ | f, rest⟩
  · rw [drainBuf_none hc, drainBuf_none (h.trans hc)]
  · rw [drainBuf_some hc, drainBuf_some (h.trans hc)]

/-- A lead-in in which no marker starts makes no difference to the frames of a drain. -/
theorem drainBuf_frames_append_leadIn {l y : List Byte} (h : ∀ j < l.length, ¬ markerAt (l ++ y) j) :
    (drainBuf (l ++ y)).1 = (drainBuf y).1 := by
  by_cases hshort : y.length < 9
  · rw [drainBuf_frames_of_none (extractBuf_append_short h hshort), drainBuf_none (extractBuf_of_short hshort)]
  · rw [drainBuf_congr (extractBuf_append_leadIn h (Nat.not_lt.mp hshort))]

/-- No marker starts before the first one, whatever is fed behind. -/
theorem not_markerAt_before {b x y : List Byte} {p : Nat} (hp : findMarker b = some p)
    (hy : b.take p ++ y = b ++ x) : ∀ j < (b.take p).length, ¬ markerAt (b.take p ++ y) j := by
  obtain ⟨hmarker, hfirst⟩ := (findMarker_some_iff b p).mp hp
  have hlt := markerAt_lt hmarker
  intro j hj
  have hjp : j < p := hj.trans_le (List.length_take_le ..)
  rw [hy, markerAt_append_left (by omega)]
  exact hfirst j hjp

/-- A drain of a longer buffer returns the same frames without the bytes in front of the first marker. -/
theorem drainBuf_frames_drop_leadIn {b : List Byte} {p : Nat} (hp : findMarker b = some p) (x : List Byte) :
    (drainBuf (b ++ x)).1 = (drainBuf (b.drop p ++ x)).1 := by
  have hsplit : b.take p ++ (b.drop p ++ x) = b ++ x := by rw [← List.append_assoc, List.take_append_drop]
  rw [← hsplit, drainBuf_frames_append_leadIn (not_markerAt_before hp hsplit)]

/-- A frame that is returned is returned whatever is fed behind it. -/
theorem extractBuf_append_some {b b' : List Byte} {f : Frame} (h : extractBuf b = (some f, b')) (x : List Byte) :
    extractBuf (b ++ x) = (some f, b' ++ x) := by
  obtain ⟨hwf, p, hp, hbuf⟩ := extractBuf_some h
  have hsplit : b.take p ++ (frameBytes f ++ (b' ++ x)) = b ++ x := by
    conv_rhs => rw [hbuf]
    simp only [List.append_assoc]
  have h9 : 9 ≤ (frameBytes f ++ (b' ++ x)).length := by
    rw [List.length_append, frameBytes_length]
    omega
  rw [← hsplit, extractBuf_append_leadIn (not_markerAt_before hp hsplit) h9, extractBuf_frameBytes hwf]

/-- No marker starts in noise when its last byte and the next one are not the two halves of one. -/
theorem not_markerAt_noise {b x : List Byte} (hnone : ∀ i, ¬ markerAt b i)
    (hsplit : ¬ (b.getLast? = some 0x5A ∧ x.head? = some 0xA5)) : ∀ j < b.length, ¬ markerAt (b ++ x) j := by
  intro j hj
  by_cases hlast : j + 1 < b.length
  · rw [markerAt_append_left hlast]
    exact hnone j
  · rintro ⟨h0, h1⟩
    obtain hj1 : j + 1 = b.length := by omega
    refine hsplit ⟨?_, ?_⟩
    · rw [List.getLast?_eq_getElem?, ← hj1, Nat.add_sub_cancel, ← List.getElem?_append_left hj]
      exact h0
    · rw [List.head?_eq_getElem?, ← Nat.sub_self b.length, ← List.getElem?_append_right le_rfl, ← hj1]
      exact h1

/-! ## Half a marker discarded -/

theorem discardsHalfMarker_of_noise {s : State} (h9 : 9 ≤ s.buf.length) (hnone : ∀ i, ¬ markerAt s.buf i)
    (hlast : s.buf.getLast? = some 0x5A) : discardsHalfMarker s :=
  ⟨0, [], s, rfl, by simp, h9, hnone, hlast⟩

/-- What the drain discards after a frame, the drain of the whole buffer discards. -/
theorem discardsHalfMarker_of_extract {s : State} {f : Frame} {b' : List Byte}
    (hcut : extractBuf s.buf = (some f, b'))
    (h : discardsHalfMarker { s with buf := b', results := [.extracted (some f)] }) : discardsHalfMarker s := by
  obtain ⟨n, rs, t, htimes, hframes, hdiscard⟩ := h
  refine ⟨n + 1, .extracted (some f) :: rs, t, ?_, ?_, hdiscard⟩
  · simp [extractTimes, extract_eq_of_extractBuf hcut, htimes]
  · simpa using hframes

/-- The frames of a longer buffer: those of its front, then those of what the front's drain left with the rest behind. -/
theorem drainBuf_frames_append {x : List Byte} (s : State)
    (hsplit : ¬ (discardsHalfMarker s ∧ x.head? = some 0xA5)) :
    (drainBuf (s.buf ++ x)).1 = (drainBuf s.buf).1 ++ (drainBuf ((drainBuf s.buf).2 ++ x)).1 := by
  induction h : s.buf using drainBuf_induct generalizing s with
  | some b b' f hcut ih =>
    subst h
    have hrest := ih { s with buf := b', results := [.extracted (some f)] }
      (fun ⟨hdiscard, hhead⟩ => hsplit ⟨discardsHalfMarker_of_extract hcut hdiscard, hhead⟩) rfl
    rw [drainBuf_some (extractBuf_append_some hcut x), drainBuf_some hcut, hrest]
    rfl
  | none b b' hcut =>
    subst h
    rw [drainBuf_none hcut, List.nil_append]
    rcases extractBuf_cases s.buf with ⟨-, hcut'⟩ | ⟨h9, hnone, hcut'⟩ | ⟨-, p, hp, hdrop, hcut'⟩ |
      ⟨-, p, len, more, hp, -, -, hcut'⟩ | ⟨-, p, fr, rest, -, -, -, hcut'⟩
    · cases hcut'.symm.trans hcut
      rfl
    · cases hcut'.symm.trans hcut
      refine drainBuf_frames_append_leadIn (not_markerAt_noise hnone fun ⟨hlast, hhead⟩ => hsplit ⟨?_, hhead⟩)
      exact discardsHalfMarker_of_noise h9 hnone hlast
    · cases hcut'.symm.trans hcut
      rw [← hdrop, drainBuf_frames_drop_leadIn hp]
    · cases hcut'.symm.trans hcut
      exact drainBuf_frames_drop_leadIn hp x
    · cases hcut'.symm.trans hcut

/-! ## Schedules -/

/-- DRAIN returns the frames of its buffer's drain. -/
theorem drainFrames_eq (s : State) : drainFrames s = (drainBuf s.buf).1 := by
  have hresults : drainFrames s = (drainResults (drainBuf s.buf).1).filterMap
      fun r => match r with
        | .extracted f => f
        | _ => none := rfl
  rw [hresults, drainResults, List.filterMap_append, List.filterMap_map]
  simp

/-- Chunk by chunk, a schedule that splits no marker returns the frames of one drain of all its bytes. -/
theorem scheduleFrames_eq_drain (chunk : List Byte) (chunks : List (List Byte)) (s : State)
    (h : noSplitMarker (chunk :: chunks) s) :
    scheduleFrames (chunk :: chunks) s = (drainBuf (s.buf ++ (chunk :: chunks).flatten)).1 := by
  induction chunks generalizing chunk s with
  | nil => simp [scheduleFrames, drainFrames_eq]
  | cons next chunks ih =>
    obtain ⟨hsplit, hrest⟩ := h
    have hleft : (feedDrain chunk s).buf = (drainBuf (s.buf ++ chunk)).2 := rfl
    rw [scheduleFrames, ih next _ hrest, drainFrames_eq, hleft, List.flatten_cons (l := chunk), ← List.append_assoc]
    exact (drainBuf_frames_append (s.setBuf (s.buf ++ chunk)) hsplit).symm

/-- Settles O23: both schedules return the frames of one drain of all the bytes (`scheduleFrames_eq_drain`). -/
theorem chunkingKeepsTheFrames : Obligations.ChunkingKeepsTheFrames := by
  intro chunk chunks s h
  rw [scheduleFrames_eq_drain chunk chunks s h]
  simp [scheduleFrames, drainFrames_eq]

/-- Settles O24: both schedules are run. -/
theorem chunkingCanLoseAFrame : Obligations.ChunkingCanLoseAFrame := by
  unfold Obligations.ChunkingCanLoseAFrame
  decide

end Sys2Proof.Drain
end

section
/-!
The condition labels (R181, R189): one of five cases of an EXTRACT, each with its labels, its result and what it leaves; and
the labels of a DECODE by the gate and the arm.
-/
namespace Sys2Proof.Conditions

open Sys2Proof Sys2Proof.Machine Sys2Proof.Safety Sys2Proof.Synchronizer Sys2Proof.FieldDecoder

/-! ## EXTRACT -/

theorem firstMarkerAt_iff (b : List Byte) (p : Nat) : firstMarkerAt b p ↔ findMarker b = some p :=
  (findMarker_some_iff b p).symm

theorem extractConditions_of_short {b : List Byte} (h : b.length < 9) : extractConditions b = [.short] := if_pos h

theorem extractConditions_of_noise {b : List Byte} (h9 : 9 ≤ b.length) (hnone : findMarker b = none) :
    extractConditions b = [.noise] := by
  rw [extractConditions, if_neg (Nat.not_lt.mpr h9), hnone]

/-- The label X3, where there is a lead-in. -/
def leadInLabel (p : Nat) : List Condition := if 0 < p then [.leadIn] else []

theorem mem_leadInLabel_iff (c : Condition) (p : Nat) : c ∈ leadInLabel p ↔ c = .leadIn ∧ 0 < p := by
  unfold leadInLabel
  split <;> simp_all

/-- Behind the first marker, the length byte says how EXTRACT ends. -/
theorem extractConditions_of_needLen {b : List Byte} {p : Nat} (h9 : 9 ≤ b.length) (hp : findMarker b = some p)
    (hlen : b[p + 2]? = none) : extractConditions b = leadInLabel p ++ [.needLen] := by
  rw [extractConditions, if_neg (Nat.not_lt.mpr h9), hp]
  simp only [List.getElem?_drop, hlen]
  rfl

theorem extractConditions_of_len {b : List Byte} {p : Nat} {len : Byte} (h9 : 9 ≤ b.length)
    (hp : findMarker b = some p) (hlen : b[p + 2]? = some len) :
    extractConditions b =
      leadInLabel p ++ if (b.drop p).length < totalSize len then [.partialFrame] else [.frame] := by
  rw [extractConditions, if_neg (Nat.not_lt.mpr h9), hp]
  simp only [List.getElem?_drop, hlen]
  rfl

/-- The five ways an EXTRACT of a buffer can end: its labels, what it returns and what it leaves. -/
inductive Ends (b : List Byte) : List Condition → Option Frame → List Byte → Prop
  | short : b.length < 9 → Ends b [.short] none b
  | noise : 9 ≤ b.length → findMarker b = none → Ends b [.noise] none []
  | needLen (p : Nat) : 9 ≤ b.length → findMarker b = some p → b.length = p + 2 →
      Ends b (leadInLabel p ++ [.needLen]) none [Params.marker0, Params.marker1]
  | partialFrame (p : Nat) (len : Byte) (more : List Byte) : 9 ≤ b.length → findMarker b = some p →
      b[p + 2]? = some len → b.length < p + 9 + len.toNat →
      (Params.marker0 :: Params.marker1 :: len :: more).length < 9 + len.toNat →
      Ends b (leadInLabel p ++ [.partialFrame]) none (Params.marker0 :: Params.marker1 :: len :: more)
  | frame (p : Nat) (len : Byte) (fr : Frame) (rest : List Byte) : 9 ≤ b.length → findMarker b = some p →
      b[p + 2]? = some len → p + 9 + len.toNat ≤ b.length → Ends b (leadInLabel p ++ [.frame]) (some fr) rest

theorem length_ne_of_getElem? {b : List Byte} {k : Nat} {x : Byte} (h : b[k]? = some x) : b.length ≠ k :=
  (List.getElem?_eq_some_iff.mp h).1.ne'

/-- Every EXTRACT ends in one of these ways. -/
theorem extract_ends (b : List Byte) : Ends b (extractConditions b) (extractBuf b).1 (extractBuf b).2 := by
  rcases extractBuf_cases b with ⟨hshort, hcut⟩ | ⟨h9, hnone, hcut⟩ | ⟨h9, p, hp, hdrop, hcut⟩ |
    ⟨h9, p, len, more, hp, hdrop, hpartial, hcut⟩ | ⟨h9, p, fr, rest, hp, hwf, hdrop, hcut⟩
  · rw [hcut, extractConditions_of_short hshort]
    exact .short hshort
  · have hfind := (findMarker_none_iff b).mpr hnone
    rw [hcut, extractConditions_of_noise h9 hfind]
    exact .noise h9 hfind
  · have hlength := congrArg List.length hdrop
    simp only [List.length_drop, List.length_cons, List.length_nil] at hlength
    rw [hcut, extractConditions_of_needLen h9 hp (List.getElem?_eq_none (by omega))]
    exact .needLen p h9 hp (by omega)
  · have hlen : b[p + 2]? = some len := by rw [← List.getElem?_drop, hdrop]; rfl
    have hlength := congrArg List.length hdrop
    simp only [List.length_drop, List.length_cons] at hlength
    have hshort : (b.drop p).length < totalSize len := by
      simp only [List.length_drop, totalSize, Params.hdrSize, Params.trlSize]
      omega
    rw [hcut, extractConditions_of_len h9 hp hlen, if_pos hshort, hdrop]
    exact .partialFrame p len more h9 hp hlen (by omega) (by simp only [List.length_cons]; omega)
  · have hlen : b[p + 2]? = some fr.length := by rw [← List.getElem?_drop, hdrop]; rfl
    have hlength := congrArg List.length hdrop
    have hpayload := ((frameWf_iff fr).mp hwf).1
    simp only [List.length_drop, List.length_append, frameBytes_length] at hlength
    have hwhole : ¬ (b.drop p).length < totalSize fr.length := by
      simp only [List.length_drop, totalSize, Params.hdrSize, Params.trlSize]
      omega
    rw [hcut, extractConditions_of_len h9 hp hlen, if_neg hwhole]
    exact .frame p fr.length fr rest h9 hp hlen (by omega)

/-! ## DECODE -/

theorem decodeConditions_of_failed {fr : Frame} (hg : gatePasses fr = false) : decodeConditions fr = [.badCk] := by
  simp [decodeConditions, hg]

theorem decodeConditions_of_unknown {fr : Frame} (hg : gatePasses fr = true)
    (harm : armOfKey (dispatchKey fr.cmd fr.index) = .unknown) : decodeConditions fr = [.unknown] := by
  simp [decodeConditions, hg, harm]

/-- Under a known key the gate's label is Y0; Y3 asks for a byte beyond ASCII in the serial number, in the info arm. -/
theorem mem_decodeConditions_of_known {fr : Frame} (hg : gatePasses fr = true)
    (harm : armOfKey (dispatchKey fr.cmd fr.index) ≠ .unknown) (c : Condition) :
    c ∈ decodeConditions fr ↔ c = .ok ∨ c = .repl ∧ armOfKey (dispatchKey fr.cmd fr.index) = .info ∧
      ∃ b ∈ fr.payload.take 14, 0x7F < b.toNat := by
  cases h : armOfKey (dispatchKey fr.cmd fr.index) with
  | unknown => exact absurd h harm
  | info => simp [decodeConditions, hg, h, and_comm]
  | empty20 | status | cells | empty50 => simp [decodeConditions, hg, h]

theorem asciiOrRepl_eq_replacement_iff (b : Byte) : asciiOrRepl b = .replacement ↔ 0x7F < b.toNat := by
  unfold asciiOrRepl
  split <;> simp_all

/-- A serial number stands in the info arm's map only, and has a placeholder for each byte beyond ASCII (R131, R75). -/
theorem replacement_in_serial_iff (arm : Arm) (payload : List Byte) :
    (∃ cs, fieldLookup (armFields arm payload) .serial = some (.text cs) ∧ TextChar.replacement ∈ cs) ↔
      arm = .info ∧ ∃ b ∈ payload.take 14, 0x7F < b.toNat := by
  cases arm with
  | info => simp [armFields, fieldLookup_infoFields, asciiOrRepl_eq_replacement_iff, -List.map_take]
  | status => simp [armFields, fieldLookup_statusFields]
  | cells => simp [armFields, cellsFields, fieldLookup]
  | empty20 | empty50 | unknown => simp [armFields, fieldLookup]

/-- Settles O58: each of the five ends of an EXTRACT (`extract_ends`) has its own label, result and remainder; of a DECODE,
the gate and then the arm decide the labels and the record alike. -/
theorem conditionsSayWhatTheOperationDid : Obligations.ConditionsSayWhatTheOperationDid := by
  refine ⟨fun s t h => ?_, fun fr s hwf => ⟨decodeRecord fr, decode_of_wf hwf s, ?_⟩⟩
  · cases h
    simp only [State.returning_results, State.returning_buf, State.setBuf_buf, firstMarkerAt_iff,
      ← findMarker_none_iff]
    have hends := extract_ends s.buf
    generalize extractConditions s.buf = labels, (extractBuf s.buf).1 = returned, (extractBuf s.buf).2 = kept
      at hends ⊢
    cases hends with
    | short hshort => simp [hshort, Nat.not_le.mpr hshort]
    | noise h9 hnone => simp [h9, hnone]
    | needLen p h9 hp hlen =>
      have h7 : 7 ≤ p := by omega
      simp [h7, hp, hlen, mem_leadInLabel_iff]
    | partialFrame p len more h9 hp hlen hlength hmore =>
      simpa [h9, hp, hlen, hlength, mem_leadInLabel_iff, length_ne_of_getElem? hlen] using hmore
    | frame p len fr rest h9 hp hlen hlength =>
      simp [h9, hp, hlen, hlength, mem_leadInLabel_iff, length_ne_of_getElem? hlen]
  · cases hg : gatePasses fr with
    | false => simp [decodeConditions_of_failed hg, decodeRecord, hg, fieldLookup]
    | true =>
      rw [decodeRecord_of_gate hg, replacement_in_serial_iff]
      by_cases harm : armOfKey (dispatchKey fr.cmd fr.index) = .unknown
      · simp [decodeConditions_of_unknown hg harm, harm, (armOfKey_eq_unknown_iff ..).mp harm]
      · have hkey := not_not.mp (mt (armOfKey_eq_unknown_iff ..).mpr harm)
        simp [mem_decodeConditions_of_known hg harm, hkey]

end Sys2Proof.Conditions
end
